-- ==== Sys2Proof/Word.lean ====
section
/-! DEFINITION. The machine's words (`spec/00_scope.md` R5, R6): every value is an unsigned bit vector. -/

namespace Sys2Proof

/-- A register or memory cell value, `W` = 8 bits (R5, R21, R50). -/
abbrev Byte := BitVec 8

/-- The program counter's word, `W_PC` = 9 bits (R5, R26). -/
abbrev PcWord := BitVec 9

/-- The ALU's operation select, 2 bits (R104). -/
abbrev AluSelect := BitVec 2

end Sys2Proof
end

