-- ==== Sys2Proof/Syntax.lean ====
section
/-! DEFINITION. The 13 instructions of `spec/30_encoding.md` R80, in the table's order. A register operand is the whole operand
byte (R87): a byte above 7 is a legal operand of the syntax, and the machine raises `OutOfRange` when it accesses a register with
it (R25, R92). -/

namespace Sys2Proof

/-- One constructor per row of the opcode table (R80); the operands are the bytes that follow the opcode, in address order (R81). -/
inductive Instr where
  /-- LDI reg, imm (R130) -/
  | ldi (reg imm : Byte)
  /-- PRN reg (R132) -/
  | prn (reg : Byte)
  /-- MUL ra, rb (R141) -/
  | mul (ra rb : Byte)
  /-- ADD ra, rb (R140) -/
  | add (ra rb : Byte)
  /-- PUSH reg (R152) -/
  | push (reg : Byte)
  /-- POP reg (R153) -/
  | pop (reg : Byte)
  /-- CALL reg (R160) -/
  | call (reg : Byte)
  /-- RET (R161) -/
  | ret
  /-- CMP ra, rb (R170) -/
  | cmp (ra rb : Byte)
  /-- JEQ reg (R172) -/
  | jeq (reg : Byte)
  /-- JNE reg (R173) -/
  | jne (reg : Byte)
  /-- JMP reg (R174) -/
  | jmp (reg : Byte)
  /-- HLT (R185) -/
  | hlt
  deriving DecidableEq, Repr

end Sys2Proof
end

