-- ==== Sys2Proof/Decode.lean ====
section
/-! DEFINITION. The instruction_decoder unit (`spec/40_core_units_and_step.md` R102), the opcode table and the encoder
(`spec/30_encoding.md` R80 to R93). The decoder is a lookup on the opcode byte alone; operand bytes are taken as they stand. -/

namespace Sys2Proof

/-- The decoder's output `mn`: the 13 mnemonics of R80, in the table's order. -/
inductive Mnemonic where
  | LDI | PRN | MUL | ADD | PUSH | POP | CALL | RET | CMP | JEQ | JNE | JMP | HLT
  deriving DecidableEq, Repr

/-- The rows of the opcode table in the order of R80. -/
def mnemonics : List Mnemonic :=
  [.LDI, .PRN, .MUL, .ADD, .PUSH, .POP, .CALL, .RET, .CMP, .JEQ, .JNE, .JMP, .HLT]

/-- The parameter `OPC` (R5) at the values of R80. UNVERIFIED (log entry 1): the spec takes these bytes from general knowledge. -/
def opc : Mnemonic → Byte
  | .LDI => 0x82
  | .PRN => 0x47
  | .MUL => 0xA2
  | .ADD => 0xA0
  | .PUSH => 0x45
  | .POP => 0x46
  | .CALL => 0x50
  | .RET => 0x11
  | .CMP => 0xA7
  | .JEQ => 0x55
  | .JNE => 0x56
  | .JMP => 0x54
  | .HLT => 0x01

/-- The parameter `OPERANDS` (R5): the operand count column of R80. -/
def operandCount : Mnemonic → Nat
  | .LDI => 2
  | .PRN => 1
  | .MUL => 2
  | .ADD => 2
  | .PUSH => 1
  | .POP => 1
  | .CALL => 1
  | .RET => 0
  | .CMP => 2
  | .JEQ => 1
  | .JNE => 1
  | .JMP => 1
  | .HLT => 0

/-- The decoder's lookup, total on all 256 opcode bytes (R88); `none` is the spec's `unknown` (R90). -/
def lookupOpcode (op : Byte) : Option Mnemonic := mnemonics.find? (fun mn => opc mn == op)

/-- The decoder's output `n` (R102): the operand count, 0 for an unknown byte, whose operands are never fetched (R112). -/
def operandCountOf (op : Byte) : Nat :=
  match lookupOpcode op with
  | some mn => operandCount mn
  | none => 0

/-- The ALU select ADD (R104). -/
def aluAdd : AluSelect := 0b00

/-- The ALU select MUL (R104). -/
def aluMul : AluSelect := 0b01

/-- The decoder's control `alu_op` (R102, R104): issued for ADD and MUL only. -/
def aluOp : Mnemonic → Option AluSelect
  | .ADD => some aluAdd
  | .MUL => some aluMul
  | .LDI | .PRN | .PUSH | .POP | .CALL | .RET | .CMP | .JEQ | .JNE | .JMP | .HLT => none

/-- The decoder's control `uses_stack` (R102). DEDUCED (log entry 9): the four instructions R23 says use `x[7]` implicitly. -/
def usesStack : Mnemonic → Bool
  | .PUSH | .POP | .CALL | .RET => true
  | .LDI | .PRN | .MUL | .ADD | .CMP | .JEQ | .JNE | .JMP | .HLT => false

/-- The decoder's control `sets_pc` (R102). DEDUCED (log entry 9): the instructions R89 lists as setting `pc` directly. -/
def setsPc : Mnemonic → Bool
  | .CALL | .RET | .JEQ | .JNE | .JMP => true
  | .LDI | .PRN | .MUL | .ADD | .PUSH | .POP | .CMP | .HLT => false

/-- Why bytes are no instruction. -/
inductive DecodeError where
  /-- There is no opcode byte. -/
  | noOpcode
  /-- The opcode byte is not in the table (R90). -/
  | unknownOpcode (op : Byte)
  /-- The opcode is known and fewer operand bytes follow than its operand count (R92, second sentence). -/
  | operandsMissing (mn : Mnemonic)
  deriving DecidableEq, Repr

/-- The instruction of a mnemonic with the operand bytes that follow its opcode, first operand first (R81 to R85), and the bytes
after it. -/
def assemble : Mnemonic → List Byte → Option (Instr × List Byte)
  | .LDI, reg :: imm :: rest => some (.ldi reg imm, rest)
  | .PRN, reg :: rest => some (.prn reg, rest)
  | .MUL, ra :: rb :: rest => some (.mul ra rb, rest)
  | .ADD, ra :: rb :: rest => some (.add ra rb, rest)
  | .PUSH, reg :: rest => some (.push reg, rest)
  | .POP, reg :: rest => some (.pop reg, rest)
  | .CALL, reg :: rest => some (.call reg, rest)
  | .RET, rest => some (.ret, rest)
  | .CMP, ra :: rb :: rest => some (.cmp ra rb, rest)
  | .JEQ, reg :: rest => some (.jeq reg, rest)
  | .JNE, reg :: rest => some (.jne reg, rest)
  | .JMP, reg :: rest => some (.jmp reg, rest)
  | .HLT, rest => some (.hlt, rest)
  | _, _ => none

/-- Decoding, total on any bytes: the instruction at the head of the bytes and the bytes after it, or a rejection by name (R88). -/
def decode : List Byte → Except DecodeError (Instr × List Byte)
  | [] => .error .noOpcode
  | op :: operands =>
    match lookupOpcode op with
    | none => .error (.unknownOpcode op)
    | some mn =>
      match assemble mn operands with
      | none => .error (.operandsMissing mn)
      | some r => .ok r

/-- The mnemonic of an instruction (R80). -/
def Instr.mnemonic : Instr → Mnemonic
  | .ldi _ _ => .LDI
  | .prn _ => .PRN
  | .mul _ _ => .MUL
  | .add _ _ => .ADD
  | .push _ => .PUSH
  | .pop _ => .POP
  | .call _ => .CALL
  | .ret => .RET
  | .cmp _ _ => .CMP
  | .jeq _ => .JEQ
  | .jne _ => .JNE
  | .jmp _ => .JMP
  | .hlt => .HLT

/-- The operand bytes of an instruction in address order (R81, formats Z, R, RR, RI of R82 to R85). -/
def Instr.operands : Instr → List Byte
  | .ldi reg imm => [reg, imm]
  | .prn reg => [reg]
  | .mul ra rb => [ra, rb]
  | .add ra rb => [ra, rb]
  | .push reg => [reg]
  | .pop reg => [reg]
  | .call reg => [reg]
  | .ret => []
  | .cmp ra rb => [ra, rb]
  | .jeq reg => [reg]
  | .jne reg => [reg]
  | .jmp reg => [reg]
  | .hlt => []

/-- The cells of an instruction, opcode byte at the lowest address (R54, R81). -/
def encode (i : Instr) : List Byte := opc i.mnemonic :: i.operands

/-- The three cells (the longest instruction, R81) whose bits are `w`, the first cell in bits 7..0, the second in bits 15..8, the
third in bits 23..16; every bit from `nbits` on is 0. -/
def tableWordBytes (nbits w : Nat) : List Byte :=
  let v := w % 2 ^ nbits
  [BitVec.ofNat 8 v, BitVec.ofNat 8 (v / 256), BitVec.ofNat 8 (v / 65536)]

/-- What the decoder reads from an instruction whose bits are `w`, numbered as `spec/opcode_table.json` numbers them. -/
def decodeTableWord (nbits w : Nat) : Option Instr :=
  match decode (tableWordBytes nbits w) with
  | .ok (i, _) => some i
  | .error _ => none

end Sys2Proof
end

