-- ==== Sys2Proof/Config.lean ====
section
/-! DEFINITION. The parameters of the hardware at the values `spec/00_scope.md` R5 gives them. The two parameters that are
maps (`OPC`, `OPERANDS`) stand in `Sys2Proof/Decode.lean` as `opc` and `operandCount`. The spec leaves no value open
(`spec/93_implementation_defined.md`), so there is no free value here. -/

namespace Sys2Proof

/-- Number of memory cells `N`; addresses are `0..N-1` (R5, R50). -/
abbrev Config.N : Nat := 256

/-- Number of general registers `NREG` (R5, R21). -/
abbrev Config.NREG : Nat := 8

/-- Index `SPI` of the register used as the stack pointer (R5, R23). -/
abbrev Config.SPI : Fin 8 := 7

/-- Reset value `SP_INIT` of register 7, and the value at which POP and RET underflow (R5, R40, R151). -/
abbrev Config.SP_INIT : Byte := 0xFF

end Sys2Proof
end

