-- ==== Sys2Proof/Machine/State.lean ====
section
/-! DEFINITION. The complete state of the core (`spec/10_state.md` R20) as plain data, its reset value (R40), and the reasons
a step can stop. -/

namespace Sys2Proof.Machine

/-- The comparison flag `fl` (R29): exactly one of four values. -/
inductive Flag where
  | unset
  | equal
  | less
  | greater
  deriving DecidableEq, Repr

/-- The run state `run` (R32). -/
inductive RunState where
  | running
  | halted
  deriving DecidableEq, Repr

/-- The halt cause `cause` (R33): six values. -/
inductive Cause where
  | none
  | hlt
  | unknownOpcode
  | outOfRange
  | stackUnderflow
  | unsupportedOperation
  deriving DecidableEq, Repr

/-- The four run-time error kinds a step can raise (`spec/60_exceptions.md` R190). -/
inductive ErrorKind where
  | unknownOpcode
  | outOfRange
  | stackUnderflow
  | unsupportedOperation
  deriving DecidableEq, Repr

/-- Memory as (address, byte) pairs: addresses strictly rising, no entry equal to what an unlisted address reads as
(`Memory.wf` in `Machine/Ops.lean` says so). DESIGN CHOICE (log entry 6). -/
abbrev Memory := List Host.Cell

/-- What a cell that is not listed reads as: memory is zero after reset (R40). -/
abbrev Memory.unlisted : Byte := 0

/-- The state tuple `(x[0..7], pc, fl, run, cause, mem[0..N-1], out)` of R20; there is no other state (R34, R37, R38). -/
structure State where
  /-- general registers `x[0]`..`x[7]`; `x[7]` is the stack pointer (R21, R23) -/
  x : Vector Byte 8
  /-- program counter, 9 bits (R26) -/
  pc : PcWord
  /-- comparison flag (R29) -/
  fl : Flag
  /-- run state (R32) -/
  run : RunState
  /-- halt cause (R33) -/
  cause : Cause
  /-- memory `mem[0]`..`mem[255]` (R50) -/
  mem : Memory
  /-- values emitted so far, oldest first (R35) -/
  out : List Byte
  deriving DecidableEq, Repr

/-- Why `step` gives no next state. -/
inductive Fault where
  /-- Raised by `step` alone, on a state whose `run` is HALTED: there is no step (R117) and only reset leaves HALTED (R32).
  Safe: the model stops where the hardware takes no step. No instruction answers with it. -/
  | coreHalted
  deriving DecidableEq, Repr

/-- Why an instruction has no meaning in the model. -/
inductive Refusal where
  /-- Raised by `exec` for an instruction that has no meaning yet; no arm of `exec` uses it. Safe: the model stops. -/
  | notModelled (mnemonic : String)
  deriving DecidableEq, Repr

/-- The machine right after reset (R40, R220): the spec gives every value, memory is all zero, so nothing is listed. -/
def State.reset : State where
  x := #v[0, 0, 0, 0, 0, 0, 0, Config.SP_INIT]
  pc := 0
  fl := .unset
  run := .running
  cause := .none
  mem := []
  out := []

end Sys2Proof.Machine
end

