-- ==== Sys2Proof/Machine/Ops.lean ====
section
/-! DEFINITION. The named operations over memory, registers, program counter, output and run state: the primitives of
`spec/00_scope.md` R8, the register_file (R103), program_counter (R105) and load_store_unit (R108) units, and taking an
exception (R195, R196). The hardware has no return from an exception (R201), so there is none beside it. -/

namespace Sys2Proof.Machine

/-- The outcome of one step of this machine. -/
abbrev StepOutcome := Host.Outcome State Fault Refusal

/-! ## Memory cells -/

/-- The value of one cell. -/
def Memory.read : Memory → Nat → Byte
  | [], _ => Memory.unlisted
  | (k, v) :: m, a => if k = a then v else Memory.read m a

/-- Memory without a listed value for address `a`, which then reads as unlisted. -/
def Memory.clear (m : Memory) (a : Nat) : Memory := m.filter (fun c => c.1 != a)

/-- Lists `v` at address `a` before the first higher address. -/
def Memory.insert : Memory → Nat → Byte → Memory
  | [], a, v => [(a, v)]
  | (k, w) :: m, a, v => if a < k then (a, v) :: (k, w) :: m else (k, w) :: Memory.insert m a v

/-- One cell written; writing the value an unlisted cell reads as removes the entry. -/
def Memory.write (m : Memory) (a : Nat) (v : Byte) : Memory :=
  if v = Memory.unlisted then m.clear a else (m.clear a).insert a v

/-- Addresses are at least `lo`, strictly rising and below `N`, and no listed value is the unlisted one. -/
def Memory.wfFrom : Nat → Memory → Bool
  | _, [] => true
  | lo, (k, v) :: m => decide (lo ≤ k) && decide (k < Config.N) && v != Memory.unlisted && Memory.wfFrom (k + 1) m

/-- The canonical form of memory. -/
def Memory.wf (m : Memory) : Bool := Memory.wfFrom 0 m

/-- The state with memory `m`. -/
def State.setMem (s : State) (m : Memory) : State := { s with mem := m }

/-! ## Memory accesses, range-checked (R8, R53, R108) -/

/-- `MemRead(a, 1)` (R8). -/
def memRead (a : Nat) (s : State) : Except ErrorKind Byte :=
  if a > Config.N - 1 then .error .outOfRange else .ok (s.mem.read a)

/-- `MemWrite(a, 1, v)` (R8). -/
def memWrite (a : Nat) (v : Byte) (s : State) : Except ErrorKind State :=
  if a > Config.N - 1 then .error .outOfRange else .ok (s.setMem (s.mem.write a v))

/-- `n` cells read at ascending addresses from `a`, each range-checked in turn (R56, R57). -/
def memReadCells (a : Nat) : Nat → State → Except ErrorKind (List Byte)
  | 0, _ => .ok []
  | n + 1, s => do
    let b ← memRead a s
    let bs ← memReadCells (a + 1) n s
    pure (b :: bs)

/-! ## Registers (R21, R103) -/

/-- The value of register `r`. -/
def State.reg (s : State) (r : Fin 8) : Byte := s.x[r]

/-- Register `r` set to `v`. -/
def State.setReg (s : State) (r : Fin 8) (v : Byte) : State := { s with x := s.x.set r v }

/-- The stack pointer, a synonym for `x[7]` (R7, R23). -/
def State.sp (s : State) : Byte := s.reg Config.SPI

/-- The stack_pointer unit's internal write path to `x[7]` (R103). -/
def State.setSp (s : State) (v : Byte) : State := s.setReg Config.SPI v

/-! ## Program counter (R105) -/

/-- `load_seq` with operand count `n`: `pc <- pc + 1 + n`. From `pc <= 255` the result is at most 258 and nothing wraps (R28).
DESIGN CHOICE (log entry 5): from an unreachable `pc` above 508 the 9 bits wrap. -/
def State.loadSeq (s : State) (n : Nat) : State := { s with pc := BitVec.ofNat 9 (s.pc.toNat + 1 + n) }

/-- `load_target`: `pc <- zext_9(target)`. -/
def State.loadTarget (s : State) (target : Byte) : State := { s with pc := target.zeroExtend 9 }

/-! ## Flag and output -/

/-- The flags_register's write (R107). -/
def State.setFl (s : State) (f : Flag) : State := { s with fl := f }

/-- `Emit(v)`: `out <- out ++ [v]` (R8, R35). -/
def State.emit (s : State) (v : Byte) : State := { s with out := s.out ++ [v] }

/-! ## Halting and taking an exception (R8, R195, R196) -/

/-- The cause code an error kind sets (R190). -/
def ErrorKind.cause : ErrorKind → Cause
  | .unknownOpcode => .unknownOpcode
  | .outOfRange => .outOfRange
  | .stackUnderflow => .stackUnderflow
  | .unsupportedOperation => .unsupportedOperation

/-- `run <- HALTED; cause <- c`, every other piece of state kept (R185, R195). -/
def State.halt (s : State) (c : Cause) : State := { s with run := .halted, cause := c }

/-- `raise E` (R8): the state before the step with `run = HALTED` and `cause = E`. DESIGN CHOICE (log entry 4): it is a next
state, not a `Fault` of the model. -/
def State.raise (s : State) (e : ErrorKind) : State := s.halt e.cause

/-- How a step begun in `s` ends: with the state its pseudocode reached, or, where a check raised, with the exception taken from
`s` itself, so that every write the step made is discarded (R8, R110, R196). -/
def conclude (s : State) : Except ErrorKind State → StepOutcome
  | .ok t => .next t
  | .error e => .next (s.raise e)

/-- A step exists while `run = RUNNING` only (R32, R117). DESIGN CHOICE (log entry 2): the missing step is a named fault. -/
def whenRunning (s : State) (o : StepOutcome) : StepOutcome :=
  match s.run with
  | .running => o
  | .halted => .fault .coreHalted

end Sys2Proof.Machine
end

