-- ==== Sys2Proof/Machine/Alu.lean ====
section
/-! DEFINITION. The alu_unit (`spec/40_core_units_and_step.md` R104): stateless, two register operands, no flags. -/

namespace Sys2Proof.Machine

/-- The exact natural-number result reduced modulo 256 (R104, R142); a select other than ADD and MUL raises
`UnsupportedOperation` (R144, R194). -/
def alu (sel : AluSelect) (p q : Byte) : Except ErrorKind Byte :=
  if sel = aluAdd then .ok (BitVec.ofNat 8 (p.toNat + q.toNat))
  else if sel = aluMul then .ok (BitVec.ofNat 8 (p.toNat * q.toNat))
  else .error .unsupportedOperation

end Sys2Proof.Machine
end

