-- ==== Sys2Proof/Machine/Operands.lean ====
section
/-! DEFINITION. Operand forms: the register operand byte (`spec/10_state.md` R25), and the one data addressing mode, register
indirect through `x[7]` with pre-decrement on writes and post-increment on reads (`spec/43_stack_push_pop.md` R150, R151, R158;
the stack_pointer unit of `spec/40_core_units_and_step.md` R106). LDI's immediate is its operand byte as it stands (R86). -/

namespace Sys2Proof.Machine

/-- `reg(b)` (R8, R25, R87): a byte 0..7 selects that register, any other byte raises `OutOfRange`; it is not masked. -/
def regIndex (b : Byte) : Except ErrorKind (Fin 8) :=
  if h : b.toNat < 8 then .ok ⟨b.toNat, h⟩ else .error .outOfRange

/-- The stack pointer's decrement `dec` (R106, R150): `x[7] - 1`, `OutOfRange` when `x[7] = 0`. It is also the address PUSH and
CALL write (R158). -/
def spDec (s : State) : Except ErrorKind Byte :=
  if s.sp = 0 then .error .outOfRange else .ok (s.sp - 1)

/-- The stack pointer's increment `inc` (R106, R151): `x[7] + 1`, `StackUnderflow` when `x[7] = 0xFF`. -/
def spInc (s : State) : Except ErrorKind Byte :=
  if s.sp = Config.SP_INIT then .error .stackUnderflow else .ok (s.sp + 1)

/-- CALL's return address `pc + 2`, computed without wrap (R105): `OutOfRange` when it is no memory address (R160). -/
def returnAddress (s : State) : Except ErrorKind Byte :=
  if s.pc.toNat + 2 > Config.N - 1 then .error .outOfRange else .ok (BitVec.ofNat 8 (s.pc.toNat + 2))

end Sys2Proof.Machine
end

