-- ==== Sys2Proof/Machine/Arith.lean ====
section
/-! DEFINITION. ADD and MUL (`spec/42_alu_mul_add.md`): ADD writes its first register and emits nothing, MUL emits and writes no
register (R143). -/

namespace Sys2Proof.Machine

/-- ADD ra, rb (R140). -/
def execAdd (ra rb : Byte) (s : State) : StepOutcome :=
  conclude s do
    let i ← regIndex ra
    let j ← regIndex rb
    let v ← alu aluAdd (s.reg i) (s.reg j)
    pure ((s.setReg i v).loadSeq 2)

/-- MUL ra, rb (R141). -/
def execMul (ra rb : Byte) (s : State) : StepOutcome :=
  conclude s do
    let i ← regIndex ra
    let j ← regIndex rb
    let v ← alu aluMul (s.reg i) (s.reg j)
    pure ((s.emit v).loadSeq 2)

end Sys2Proof.Machine
end

