-- ==== Sys2Proof/Machine/Flags.lean ====
section
/-! DEFINITION. The flags_register unit (`spec/40_core_units_and_step.md` R107): the unsigned comparator, the branch conditions
(`spec/45_cmp_branch.md` R172, R173) and the flag's hardware encoding (`spec/10_state.md` R31). -/

namespace Sys2Proof.Machine

/-- The comparison of CMP, unsigned, first operand relative to second (R107, R170). -/
def comparator (p q : Byte) : Flag :=
  if p.toNat = q.toNat then .equal else if p.toNat < q.toNat then .less else .greater

/-- JEQ is taken exactly when `fl = EQUAL` (R172, R175). -/
def takesJeq (f : Flag) : Bool := f == .equal

/-- JNE is taken exactly when `fl` is not EQUAL, so also when it is UNSET (R173, R175, conflict C4). -/
def takesJne (f : Flag) : Bool := f != .equal

/-- The one-hot register `fl_bits[2:0]` = `L G E` of a hardware realisation (R31); no program observes it. -/
def flBits : Flag → BitVec 3
  | .unset => 0b000
  | .equal => 0b001
  | .greater => 0b010
  | .less => 0b100

end Sys2Proof.Machine
end

