-- ==== Sys2Proof/Machine/Branch.lean ====
section
/-! DEFINITION. CMP, JEQ, JNE and JMP (`spec/45_cmp_branch.md`). -/

namespace Sys2Proof.Machine

/-- CMP ra, rb (R170). -/
def execCmp (ra rb : Byte) (s : State) : StepOutcome :=
  conclude s do
    let i ← regIndex ra
    let j ← regIndex rb
    pure ((s.setFl (comparator (s.reg i) (s.reg j))).loadSeq 2)

/-- A taken branch or jump (R172 to R174): the register is accessed, and its index checked, on this path only. -/
def jumpTo (reg : Byte) (s : State) : Except ErrorKind State := do
  let r ← regIndex reg
  pure (s.loadTarget (s.reg r))

/-- JEQ reg (R172). -/
def execJeq (reg : Byte) (s : State) : StepOutcome :=
  conclude s (if takesJeq s.fl then jumpTo reg s else .ok (s.loadSeq 1))

/-- JNE reg (R173). -/
def execJne (reg : Byte) (s : State) : StepOutcome :=
  conclude s (if takesJne s.fl then jumpTo reg s else .ok (s.loadSeq 1))

/-- JMP reg (R174). -/
def execJmp (reg : Byte) (s : State) : StepOutcome := conclude s (jumpTo reg s)

end Sys2Proof.Machine
end

