-- ==== Sys2Proof/Machine/Halt.lean ====
section
/-! DEFINITION. HLT (`spec/46_hlt.md`). -/

namespace Sys2Proof.Machine

/-- HLT (R185): `run <- HALTED; cause <- HLT`, all else (also `pc`) unchanged. -/
def execHlt (s : State) : StepOutcome := conclude s (.ok (s.halt .hlt))

end Sys2Proof.Machine
end

