-- ==== Sys2Proof/Machine/LoadPrint.lean ====
section
/-! DEFINITION. LDI and PRN (`spec/41_ldi_prn.md`). -/

namespace Sys2Proof.Machine

/-- LDI reg, imm (R130). -/
def execLdi (reg imm : Byte) (s : State) : StepOutcome :=
  conclude s do
    let r ← regIndex reg
    pure ((s.setReg r imm).loadSeq 2)

/-- PRN reg (R132). -/
def execPrn (reg : Byte) (s : State) : StepOutcome :=
  conclude s do
    let r ← regIndex reg
    pure ((s.emit (s.reg r)).loadSeq 1)

end Sys2Proof.Machine
end

