-- ==== Sys2Proof/Machine/Stack.lean ====
section
/-! DEFINITION. PUSH and POP (`spec/43_stack_push_pop.md`). The effect is executed in the written order on live state, so
register 7 as the explicit operand sees the pointer already moved (R154). -/

namespace Sys2Proof.Machine

/-- PUSH reg (R152): the stored value is read after `x[7]` was decremented. -/
def execPush (reg : Byte) (s : State) : StepOutcome :=
  conclude s do
    let r ← regIndex reg
    let sp ← spDec s
    let s₁ := s.setSp sp
    let s₂ ← memWrite sp.toNat (s₁.reg r) s₁
    pure (s₂.loadSeq 1)

/-- POP reg (R153): the pointer is checked before the read and again, for register 7, after the popped value is written. -/
def execPop (reg : Byte) (s : State) : StepOutcome :=
  conclude s do
    let r ← regIndex reg
    let _ ← spInc s
    let v ← memRead s.sp.toNat s
    let s₁ := s.setReg r v
    let sp ← spInc s₁
    pure ((s₁.setSp sp).loadSeq 1)

end Sys2Proof.Machine
end

