-- ==== Sys2Proof/Machine/Subroutine.lean ====
section
/-! DEFINITION. CALL and RET (`spec/44_call_ret.md`). -/

namespace Sys2Proof.Machine

/-- CALL reg (R160): the target is read after `x[7]` was decremented. -/
def execCall (reg : Byte) (s : State) : StepOutcome :=
  conclude s do
    let r ← regIndex reg
    let sp ← spDec s
    let back ← returnAddress s
    let s₁ := s.setSp sp
    let s₂ ← memWrite sp.toNat back s₁
    pure (s₂.loadTarget (s₂.reg r))

/-- RET (R161). -/
def execRet (s : State) : StepOutcome :=
  conclude s do
    let sp ← spInc s
    let target ← memRead s.sp.toNat s
    pure ((s.loadTarget target).setSp sp)

end Sys2Proof.Machine
end

