-- ==== Sys2Proof/Machine/Fetch.lean ====
section
/-! DEFINITION. The fetch_unit (`spec/40_core_units_and_step.md` R101, R111, R112), and placing an instruction where it fetches. -/

namespace Sys2Proof.Machine

/-- The cells of the instruction at `pc`: the opcode byte, then as many operand bytes as the decoder's operand count asks, at
ascending addresses, whatever the instruction does with them (R101, R111). -/
def fetchBytes (s : State) : Except ErrorKind (List Byte) := do
  let op ← memRead s.pc.toNat s
  let operands ← memReadCells (s.pc.toNat + 1) (operandCountOf op) s
  pure (op :: operands)

/-- The error kind of a failed decode (R112). `fetchBytes` gives the decoder every byte it asks for, so only `unknownOpcode`
arises in a step. DEDUCED (log entry 11) for the other two. -/
def decodeErrorKind : DecodeError → ErrorKind
  | .noOpcode => .outOfRange
  | .unknownOpcode _ => .unknownOpcode
  | .operandsMissing _ => .outOfRange

/-- Fetch and decode: the instruction at `pc`, or the first check that fails, in the order of R119. -/
def fetch (s : State) : Except ErrorKind Instr := do
  let bytes ← fetchBytes s
  match decode bytes with
  | .ok (i, _) => pure i
  | .error e => .error (decodeErrorKind e)

/-- `bytes` stored at ascending addresses from `a`; a byte past the last cell has no cell to go to. -/
def placeBytes (m : Memory) (a : Nat) : List Byte → Memory
  | [] => m
  | b :: bs => if a < Config.N then placeBytes (m.write a b) (a + 1) bs else m

/-- `bytes` stored where the next step fetches, in a core that takes a step (log entry 7). -/
def State.withCode (s : State) (bytes : List Byte) : State :=
  { s with mem := placeBytes s.mem s.pc.toNat bytes, run := .running, cause := .none }

end Sys2Proof.Machine
end

