-- ==== Sys2Proof/Machine/Step.lean ====
section
/-! DEFINITION. The step function (`spec/40_core_units_and_step.md` R115) and the placing of a table word. -/

namespace Sys2Proof.Machine

/-- One step (R110, R115): while RUNNING, fetch and decode, then execute; a failed fetch or decode raises. -/
def step (s : State) : Host.Outcome State Fault Refusal :=
  whenRunning s <|
    match fetch s with
    | .ok i => exec i s
    | .error e => conclude s (.error e)

/-- `s` with the instruction whose bits are `w` stored where `step` fetches its next instruction (log entries 3 and 7). -/
def State.withFetchWord (s : State) (nbits w : Nat) : State := s.withCode (tableWordBytes nbits w)

end Sys2Proof.Machine
end

