-- ==== Sys2Proof/Machine/Ports.lean ====
section
/-! DEFINITION. The core's output ports as views of the state (`spec/40_core_units_and_step.md` R109); no instruction reads one and
reading one changes nothing. -/

namespace Sys2Proof.Machine

/-- The code `cause` presents on the port `cause[2:0]` (R33). -/
def causeCode : Cause → BitVec 3
  | .none => 0
  | .hlt => 1
  | .unknownOpcode => 2
  | .outOfRange => 3
  | .stackUnderflow => 4
  | .unsupportedOperation => 5

/-- The port `halted`: `run = HALTED` (R109). -/
def haltedPort (s : State) : Bool := s.run == .halted

/-- The port `cause[2:0]` (R109). -/
def causePort (s : State) : BitVec 3 := causeCode s.cause

/-- The pulses on `out_valid`/`out_data` between two states of a run: what was emitted since the first (R35, R109).
DESIGN CHOICE (log entry 8): the port is read off `out`. -/
def outPulses (s t : State) : List Byte := t.out.drop s.out.length

/-- What the observation port shows (R109, R228): the registers, `pc`, the flag and memory. -/
structure Observation where
  x : Vector Byte 8
  pc : PcWord
  fl : Flag
  mem : Memory
  deriving DecidableEq, Repr

/-- The observation port (R109). -/
def observe (s : State) : Observation := { x := s.x, pc := s.pc, fl := s.fl, mem := s.mem }

/-- The diagnostic of an unknown opcode at the core's boundary (R191): `halted` with `cause = 2`, the byte's address and the byte. -/
def diagnostic (s : State) : Option (PcWord × Byte) :=
  if haltedPort s && causePort s == 2 then some (s.pc, s.mem.read s.pc.toNat) else none

end Sys2Proof.Machine
end

