-- ==== Sys2Proof/Machine/Launch.lean ====
section
/-! DEFINITION. What the host does to the core (`spec/70_reset_and_hazards.md` R220 to R225, R230): assert `rst`, write cells
through the load port, assert `start`, observe. None of these is a step. The core's own state has no phase between reset and `start`
(R20, R223); the phase stands here, in `Session`, because it decides which moves the host has (R230; log entry 3). -/

namespace Sys2Proof.Machine

/-- Asserting `rst` at any time puts every piece of state at its reset value; what it interrupts is lost (R109, R220).
It is the host's move, not part of `step` (log entry 10). -/
def assertRst (_ : State) : State := State.reset

/-! ## Image load (R224) -/

/-- The reset state with memory `m`: all that can differ from reset before `start` (R223). -/
def launchState (m : Memory) : State := State.reset.setMem m

/-- One write through the load port into memory `m`, by the memory accessor: an address outside `0..N-1` is refused with
`OutOfRange` (R109, R192, R224). -/
def loadCell (addr : Nat) (data : Byte) (m : Memory) : Except ErrorKind Memory :=
  match memWrite addr data (launchState m) with
  | .ok s => .ok s.mem
  | .error e => .error e

/-- `bytes` written at ascending addresses from `addr`; the whole load fails with the error of the first refused write (R224). -/
def loadBytes (addr : Nat) : List Byte → Memory → Except ErrorKind Memory
  | [], m => .ok m
  | b :: bs, m =>
    match loadCell addr b m with
    | .ok m' => loadBytes (addr + 1) bs m'
    | .error e => .error e

/-- The launch state of an image (R225): reset, then the image from address 0; the load of an image longer than memory fails with
`OutOfRange` and nothing is started (R192, R224). -/
def launch (image : List Byte) : Except ErrorKind State :=
  match loadBytes 0 image State.reset.mem with
  | .ok m => .ok (launchState m)
  | .error e => .error e

/-! ## The host's moves (R222, R230) -/

/-- The core as the host meets it, in the phases of R230. -/
inductive Session where
  /-- Between reset and `start`: only memory can differ from its reset value (R223). -/
  | waiting (mem : Memory)
  /-- After `start`: RUNNING or HALTED, as the state says. -/
  | started (s : State)
  deriving DecidableEq, Repr

/-- The state of the core in a session. -/
def Session.state : Session → State
  | .waiting m => launchState m
  | .started s => s

/-- What the host can do to the core through the input ports of R109. It has no port for registers, `pc` or `fl`, and none that
stalls the core (R230). -/
inductive Move where
  | rst
  | load (addr : Nat) (data : Byte)
  | start
  deriving DecidableEq, Repr

/-- What a move comes to. -/
inductive MoveOutcome where
  /-- The move is made. -/
  | done (c : Session)
  /-- The load is refused with an error: it has failed and the core is not started (R224). -/
  | refused (e : ErrorKind)
  /-- The host has no such move in this phase (R230). -/
  | noMove
  deriving DecidableEq, Repr

/-- The host's moves, phase by phase (R230): `rst` always; the load port between reset and `start` only (R109), whatever cell and
however often; `start` once, which in HALTED does nothing (decision D23). -/
def hostMove : Move → Session → MoveOutcome
  | .rst, c => .done (.waiting (assertRst c.state).mem)
  | .load addr data, .waiting m =>
    match loadCell addr data m with
    | .ok m' => .done (.waiting m')
    | .error e => .refused e
  | .load _ _, .started _ => .noMove
  | .start, .waiting m => .done (.started (launchState m))
  | .start, .started s =>
    match s.run with
    | .running => .noMove
    | .halted => .done (.started s)

/-- Moves made one after another; the first that is refused or not the host's to make ends them. -/
def hostMoves : List Move → Session → MoveOutcome
  | [], c => .done c
  | m :: ms, c =>
    match hostMove m c with
    | .done d => hostMoves ms d
    | .refused e => .refused e
    | .noMove => .noMove

/-- The writes of an image from address `addr` upward (R224). -/
def loadMoves (addr : Nat) : List Byte → List Move
  | [] => []
  | b :: bs => .load addr b :: loadMoves (addr + 1) bs

/-- The launch sequence of R222: reset, load, `start`. -/
def launchMoves (image : List Byte) : List Move := .rst :: (loadMoves 0 image ++ [.start])

/-- The core's step within a session: none before `start` (R222), none in HALTED (R117). -/
def Session.step : Session → Option Session
  | .waiting _ => none
  | .started s =>
    match Machine.step s with
    | .next t => some (.started t)
    | .fault _ => none
    | .refused _ => none

/-- What the host reads once the run has ended: `cause` and the observation port; reading changes nothing (R109, R228, R230). -/
def Session.read : Session → Option (BitVec 3 × Observation)
  | .waiting _ => none
  | .started s => if haltedPort s then some (causePort s, observe s) else none

end Sys2Proof.Machine
end

