-- ==== Sys2Proof/Safety.lean ====
section
/-! DEFINITION. What counts as the end of a run and as a good state, and the words the statements use. -/

namespace Sys2Proof.Machine

/-- A run has ended when `run = HALTED` (`spec/70_reset_and_hazards.md` R228). -/
def ended (s : State) : Bool := s.run == .halted

/-- The only final state that is the program's normal end (`spec/60_exceptions.md` R209). -/
def endedNormally (s : State) : Bool := s.run == .halted && s.cause == .hlt

/-- The run ended in one of the four error kinds, which refutes a claim of normal termination (R209). -/
def endedInError (s : State) : Bool :=
  s.run == .halted && (s.cause == .unknownOpcode || s.cause == .outOfRange || s.cause == .stackUnderflow
    || s.cause == .unsupportedOperation)

/-- The machine's invariant: memory is canonical (every listed address below 256), `pc` is one of the reachable values 0..258
(R28), `run = RUNNING` exactly when `cause = NONE` (R33), and the cause is never UNSUPPORTED_OPERATION (R144, R194). -/
abbrev State.Inv (s : State) : Prop :=
  s.mem.wf = true ∧ s.pc.toNat ≤ 258 ∧ (s.run = .running ↔ s.cause = .none) ∧ s.cause ≠ .unsupportedOperation

/-- An opcode byte is fetched as an instruction with `n` operand bytes (R101, R111, R115): in a RUNNING state with that byte at
`pc`, a step raises `OutOfRange` where the operands would lie past the last cell, and otherwise is the instruction the operand
bytes give, whatever those bytes are. -/
def FetchedAs (op : Byte) (n : Nat) (i : Byte → Byte → Instr) : Prop :=
  ∀ s : State, s.run = .running → s.pc.toNat ≤ 255 → s.mem.read s.pc.toNat = op →
    (s.pc.toNat + n > 255 → step s = .next { s with run := .halted, cause := .outOfRange }) ∧
    (s.pc.toNat + n ≤ 255 →
      step s = exec (i (s.mem.read (s.pc.toNat + 1)) (s.mem.read (s.pc.toNat + 2))) s)

/-- The instructions of a list executed one after another, each on the state the one before left. -/
def execAll : List Instr → State → StepOutcome
  | [], s => .next s
  | i :: is, s =>
    match exec i s with
    | .next t => execAll is t
    | .fault r => .fault r
    | .refused r => .refused r

/-- Two states that agree on everything but the flag, and on whether the flag is EQUAL (`spec/45_cmp_branch.md` R176). -/
def FlagTwins (s t : State) : Prop := t = { s with fl := t.fl } ∧ (s.fl = .equal ↔ t.fl = .equal)

/-- The unknown opcode bytes as `spec/30_encoding.md` R90 lists them. -/
def unknownByte (b : Byte) : Bool :=
  let n := b.toNat
  decide (n = 0x00 ∨ (0x02 ≤ n ∧ n ≤ 0x10) ∨ (0x12 ≤ n ∧ n ≤ 0x44) ∨ (0x48 ≤ n ∧ n ≤ 0x4F) ∨ (0x51 ≤ n ∧ n ≤ 0x53)
    ∨ (0x57 ≤ n ∧ n ≤ 0x81) ∨ (0x83 ≤ n ∧ n ≤ 0x9F) ∨ n = 0xA1 ∨ (0xA3 ≤ n ∧ n ≤ 0xA6) ∨ (0xA8 ≤ n ∧ n ≤ 0xFF))

end Sys2Proof.Machine
end

