-- ==== Sys2Proof/WellFormed.lean ====
section
/-! DEFINITION. Well-formed instructions: every register operand byte is one of the legal values 0..7 of
`spec/30_encoding.md` R83, R84 and R85. An instruction that is not well formed still decodes and still runs (R92); its register
access raises `OutOfRange`, so no definition of the machine asks for this check. -/

namespace Sys2Proof

/-- A register operand byte names a register: legal values 0..7 (R83 to R85, R87). -/
def legalReg (b : Byte) : Bool := decide (b.toNat ≤ 7)

/-- Every register operand byte of the instruction is legal; LDI's immediate may be any byte (R85, R86). -/
def Instr.wellFormed : Instr → Bool
  | .ldi reg _ => legalReg reg
  | .prn reg => legalReg reg
  | .mul ra rb => legalReg ra && legalReg rb
  | .add ra rb => legalReg ra && legalReg rb
  | .push reg => legalReg reg
  | .pop reg => legalReg reg
  | .call reg => legalReg reg
  | .ret => true
  | .cmp ra rb => legalReg ra && legalReg rb
  | .jeq reg => legalReg reg
  | .jne reg => legalReg reg
  | .jmp reg => legalReg reg
  | .hlt => true

end Sys2Proof
end

