-- ==== Sys2Proof/Certificates/Slice0/Obligations.lean ====
section
/-! DEFINITION. The statements for the provers, from the numbered rules of `spec/`. In each instruction's rule the first clause is
its encoding, its operand fetch and the exceptions of that fetch (`FetchedAs`, over every RUNNING state and every operand byte);
the clauses after it are `exec` of the instruction, form by form, each an equation that gives the whole next state. A `pc` is
written `BitVec.ofNat 9 (pc + n)`: from a fetched instruction's `pc` (at most 255) it is exact (`SequentialAdvanceNeverWraps`).
The opcode bytes are those R80 and each instruction's rule give; the spec takes them from general knowledge (log entry 1). -/

open Sys2Proof Sys2Proof.Machine

/-! ## Reset, launch, invariant -/

/-- R40: the value of every piece of state after reset. -/
def Obligations.ResetLeavesEveryStateAtItsValue : Prop :=
  (∀ r : Fin 8, State.reset.reg r = if r = 7 then 0xFF else 0) ∧ State.reset.pc = 0 ∧ State.reset.fl = .unset ∧
  State.reset.run = .running ∧ State.reset.cause = .none ∧ (∀ a, State.reset.mem.read a = 0) ∧ State.reset.out = []

/-- The reset state meets the invariant of `StepKeepsInvariant`: `pc` in 0..258 (R28), `run = RUNNING` exactly when `cause = NONE`
(R33), the cause not UNSUPPORTED_OPERATION (R194); and memory in canonical form, which is the model's choice (DESIGN CHOICE, log
entry 6) and no rule of the spec. -/
def Obligations.ResetMeetsInvariant : Prop := State.reset.Inv

/-- Every step keeps the invariant: `pc` stays in 0..258 (R28), `run = RUNNING` exactly when `cause = NONE` (R33),
UNSUPPORTED_OPERATION is never the cause (R194); and memory stays in canonical form, which is the model's choice (DESIGN CHOICE,
log entry 6) and no rule of the spec. -/
def Obligations.StepKeepsInvariant : Prop := ∀ s t : State, s.Inv → step s = .next t → t.Inv

/-- R224, R225: an image of at most 256 bytes launches with its bytes from address 0, zero above, and all else at reset; a
longer one fails to load with `OutOfRange` (R192) and is never started. The launch state meets `Inv`, whose clause that memory is
canonical is the model's choice (DESIGN CHOICE, log entry 6); that reset, load and `start` are one function is the fold R223 allows
(log entry 3). -/
def Obligations.LaunchPlacesTheImageOverReset : Prop :=
  ∀ image : List Byte,
    (image.length ≤ 256 → ∃ s, launch image = .ok s ∧ (∀ k, s.mem.read k = image.getD k 0) ∧ s.Inv ∧
      s = { State.reset with mem := s.mem }) ∧
    (256 < image.length → launch image = .error .outOfRange)

/-- R222: from whatever the core was doing, the host's moves reset, the image's writes from address 0 up, and `start` lead to the
launch state; the load of a longer image is refused with the error of `launch`, and `start` is not reached (R224). -/
def Obligations.LaunchIsTheHostsMoves : Prop :=
  ∀ (image : List Byte) (c : Session),
    (∀ s, launch image = .ok s → hostMoves (launchMoves image) c = .done (.started s)) ∧
    (∀ e, launch image = .error e → hostMoves (launchMoves image) c = .refused e)

/-- R230: `rst` is there in every phase and leaves the reset state; before `start` any cell can be written, a write outside memory
is refused with `OutOfRange` (R224), `start` begins the run from what is loaded, and the core takes no step (R222); after `start`
there is no write to memory; in RUNNING there is no `start` and the core steps; in HALTED `start` changes nothing (decision D23)
and the host reads cause and observation port. That the phase stands beside the core's state is the model's choice (DESIGN CHOICE,
log entry 3). -/
def Obligations.HostMovesFollowThePhases : Prop :=
  (∀ c : Session, ∃ m, hostMove .rst c = .done (.waiting m) ∧ (Session.waiting m).state = State.reset) ∧
  (∀ (m : Memory) (a : Nat) (v : Byte), a ≤ 255 → hostMove (.load a v) (.waiting m) = .done (.waiting (m.write a v))) ∧
  (∀ (m : Memory) (a : Nat) (v : Byte), 255 < a → hostMove (.load a v) (.waiting m) = .refused .outOfRange) ∧
  (∀ m : Memory, hostMove .start (.waiting m) = .done (.started { State.reset with mem := m }) ∧
    (Session.waiting m).step = none) ∧
  (∀ (s : State) (a : Nat) (v : Byte), hostMove (.load a v) (.started s) = .noMove) ∧
  (∀ s : State, s.run = .running → hostMove .start (.started s) = .noMove ∧ (Session.started s).read = none ∧
    ∃ t, step s = .next t ∧ (Session.started s).step = some (.started t)) ∧
  (∀ s : State, s.run = .halted → hostMove .start (.started s) = .done (.started s) ∧ (Session.started s).step = none ∧
    (Session.started s).read = some (causePort s, { x := s.x, pc := s.pc, fl := s.fl, mem := s.mem }))

/-- Every move of the host and every step of the core, in whatever order they come (a `rst` during a run among them, R220), keep
the invariant of `StepKeepsInvariant`, whose clause that memory is canonical is the model's choice (DESIGN CHOICE, log entry 6). -/
def Obligations.HostAndCoreKeepInvariant : Prop :=
  ∀ c d : Session, c.state.Inv → ((∃ mv, hostMove mv c = .done d) ∨ c.step = some d) → d.state.Inv

/-- Canonical memories that read the same at every address are the same data (log entry 6). -/
def Obligations.CanonicalMemoriesAreEqualWhenTheyReadEqual : Prop :=
  ∀ m n : Memory, m.wf = true → n.wf = true → (∀ a, m.read a = n.read a) → m = n

/-! ## Encoding and decoding -/

/-- Decoding and encoding agree: decoding an encoded instruction gives it back, with every operand byte at every value and
whatever bytes follow; and the bytes an instruction decodes from are its encoding, so it has one encoding and no byte of it is
dropped. -/
def Obligations.DecodingIsInverseToEncoding : Prop :=
  (∀ (i : Instr) (rest : List Byte), decode (encode i ++ rest) = .ok (i, rest)) ∧
  (∀ (bytes rest : List Byte) (i : Instr), decode bytes = .ok (i, rest) → bytes = encode i ++ rest)

/-- Words written out from the encodings of R80 and the worked examples decode to the instructions they stand for. -/
def Obligations.WordsOfTheTableDecode : Prop :=
  decode [0b10000010, 0, 8] = .ok (.ldi 0 8, []) ∧ decode [0b01000111, 2] = .ok (.prn 2, []) ∧
  decode [0b10100000, 0, 1] = .ok (.add 0 1, []) ∧ decode [0b01000101, 3] = .ok (.push 3, []) ∧
  decode [0b01010000, 1] = .ok (.call 1, []) ∧ decode [0b00010001] = .ok (.ret, []) ∧
  decode [0b10100111, 0, 2] = .ok (.cmp 0 2, []) ∧ decode [0b00000001] = .ok (.hlt, [])

/-- R90, R191: the 243 listed bytes are the ones the decoder does not know; one of them at `pc` stops the core with
UNKNOWN_OPCODE, changes nothing else, and is what the diagnostic shows. -/
def Obligations.UnknownOpcodeStopsAndChangesNothingElse : Prop :=
  (∀ b : Byte, unknownByte b = (lookupOpcode b).isNone) ∧
  (∀ s : State, s.run = .running → s.pc.toNat ≤ 255 → unknownByte (s.mem.read s.pc.toNat) = true →
    step s = .next { s with run := .halted, cause := .unknownOpcode } ∧
    diagnostic { s with run := .halted, cause := .unknownOpcode } = some (s.pc, s.mem.read s.pc.toNat))

/-! ## The step -/

/-- R111: the opcode is fetched at `pc` and the operands at the addresses after it, as many as the opcode byte says; any of these
addresses above 255 raises `OutOfRange`, and otherwise the step is the instruction those bytes give. -/
def Obligations.FetchReadsOpcodeThenOperands : Prop :=
  (∀ s : State, s.run = .running → 255 < s.pc.toNat →
    step s = .next { s with run := .halted, cause := .outOfRange }) ∧
  (∀ (s : State) (mn : Mnemonic), s.run = .running → s.pc.toNat ≤ 255 → lookupOpcode (s.mem.read s.pc.toNat) = some mn →
    255 < s.pc.toNat + operandCount mn →
    step s = .next { s with run := .halted, cause := .outOfRange }) ∧
  (∀ (s : State) (mn : Mnemonic), s.run = .running → lookupOpcode (s.mem.read s.pc.toNat) = some mn →
    s.pc.toNat + operandCount mn ≤ 255 →
    ∃ i : Instr, i.mnemonic = mn ∧
      i.operands = (List.range (operandCount mn)).map (fun k => s.mem.read (s.pc.toNat + 1 + k)) ∧ step s = exec i s)

/-- When the `n` bytes from `pc` upward decode to an instruction, whatever bytes follow it, a step of a RUNNING core is exactly
`exec` of it: the step adds nothing around `exec`, which moves `pc` itself. -/
def Obligations.StepRunsTheDecodedInstruction : Prop :=
  ∀ (s : State) (n : Nat) (i : Instr) (rest : List Byte), s.run = .running → s.pc.toNat + n ≤ 256 →
    decode ((List.range n).map fun k => s.mem.read (s.pc.toNat + k)) = .ok (i, rest) → step s = exec i s

/-- R117: a HALTED core takes no step. That the missing step is the fault `coreHalted` is the model's choice (log entry 2). -/
def Obligations.HaltedCoreTakesNoStep : Prop := ∀ s : State, s.run = .halted → step s = .fault .coreHalted

/-- R234: from every RUNNING state a step yields a next state. -/
def Obligations.RunningCoreIsNeverStuck : Prop := ∀ s : State, s.run = .running → ∃ t, step s = .next t

/-- R196: a step that halts the core (a raise, or HLT) has changed `run` and `cause` and nothing else, and no step follows it; a
step that leaves the core RUNNING leaves `cause` alone. -/
def Obligations.ErrorsArePrecise : Prop :=
  ∀ s t : State, step s = .next t →
    (t.run = .halted → t.cause ≠ .none ∧ t = { s with run := .halted, cause := t.cause } ∧ ∀ u, step t ≠ .next u) ∧
    (t.run = .running → t.cause = s.cause)

/-- R28, R105: the sequential advance from a fetched instruction never wraps, and a target is zero-extended. -/
def Obligations.SequentialAdvanceNeverWraps : Prop :=
  ∀ s : State, (∀ n : Nat, s.pc.toNat ≤ 255 → n ≤ 2 → (s.loadSeq n).pc.toNat = s.pc.toNat + 1 + n) ∧
    (∀ b : Byte, (s.loadTarget b).pc.toNat = b.toNat)

/-! ## The instructions -/

/-- R130. -/
def Obligations.LdiLoadsTheImmediate : Prop :=
  FetchedAs 0x82 2 (fun reg imm => .ldi reg imm) ∧
  (∀ (reg imm : Byte) (s : State), 7 < reg.toNat →
    exec (.ldi reg imm) s = .next { s with run := .halted, cause := .outOfRange }) ∧
  (∀ (r : Fin 8) (reg imm : Byte) (s : State), reg.toNat = r.val →
    exec (.ldi reg imm) s = .next { s with x := s.x.set r imm, pc := BitVec.ofNat 9 (s.pc.toNat + 3) })

/-- R132. -/
def Obligations.PrnEmitsTheRegister : Prop :=
  FetchedAs 0x47 1 (fun reg _ => .prn reg) ∧
  (∀ (reg : Byte) (s : State), 7 < reg.toNat →
    exec (.prn reg) s = .next { s with run := .halted, cause := .outOfRange }) ∧
  (∀ (r : Fin 8) (reg : Byte) (s : State), reg.toNat = r.val →
    exec (.prn reg) s = .next { s with out := s.out ++ [s.reg r], pc := BitVec.ofNat 9 (s.pc.toNat + 2) })

/-- R140. -/
def Obligations.AddWritesTheSumModulo256 : Prop :=
  FetchedAs 0xA0 2 (fun ra rb => .add ra rb) ∧
  (∀ (ra rb : Byte) (s : State), 7 < ra.toNat ∨ 7 < rb.toNat →
    exec (.add ra rb) s = .next { s with run := .halted, cause := .outOfRange }) ∧
  (∀ (i j : Fin 8) (ra rb : Byte) (s : State), ra.toNat = i.val → rb.toNat = j.val →
    exec (.add ra rb) s =
      .next { s with
        x := s.x.set i (BitVec.ofNat 8 (((s.reg i).toNat + (s.reg j).toNat) % 256))
        pc := BitVec.ofNat 9 (s.pc.toNat + 3) })

/-- R141. -/
def Obligations.MulEmitsTheProductModulo256 : Prop :=
  FetchedAs 0xA2 2 (fun ra rb => .mul ra rb) ∧
  (∀ (ra rb : Byte) (s : State), 7 < ra.toNat ∨ 7 < rb.toNat →
    exec (.mul ra rb) s = .next { s with run := .halted, cause := .outOfRange }) ∧
  (∀ (i j : Fin 8) (ra rb : Byte) (s : State), ra.toNat = i.val → rb.toNat = j.val →
    exec (.mul ra rb) s =
      .next { s with
        out := s.out ++ [BitVec.ofNat 8 (((s.reg i).toNat * (s.reg j).toNat) % 256)]
        pc := BitVec.ofNat 9 (s.pc.toNat + 3) })

/-- R152, with R154's row for PUSH R7: the stored value is then the decremented pointer. -/
def Obligations.PushStoresBelowTheStackPointer : Prop :=
  FetchedAs 0x45 1 (fun reg _ => .push reg) ∧
  (∀ (reg : Byte) (s : State), 7 < reg.toNat ∨ s.reg 7 = 0 →
    exec (.push reg) s = .next { s with run := .halted, cause := .outOfRange }) ∧
  (∀ (r : Fin 8) (reg : Byte) (s : State), reg.toNat = r.val → s.reg 7 ≠ 0 →
    exec (.push reg) s =
      .next { s with
        x := s.x.set 7 (s.reg 7 - 1)
        mem := s.mem.write (s.reg 7 - 1).toNat (if r = 7 then s.reg 7 - 1 else s.reg r)
        pc := BitVec.ofNat 9 (s.pc.toNat + 2) })

/-- R153, with R154's row for POP R7: the popped value plus one, or `StackUnderflow` when it is 0xFF. -/
def Obligations.PopLoadsFromTheStackPointer : Prop :=
  FetchedAs 0x46 1 (fun reg _ => .pop reg) ∧
  (∀ (reg : Byte) (s : State), 7 < reg.toNat →
    exec (.pop reg) s = .next { s with run := .halted, cause := .outOfRange }) ∧
  (∀ (reg : Byte) (s : State), reg.toNat ≤ 7 → s.reg 7 = 0xFF →
    exec (.pop reg) s = .next { s with run := .halted, cause := .stackUnderflow }) ∧
  (∀ (r : Fin 8) (reg : Byte) (s : State), reg.toNat = r.val → r ≠ 7 → s.reg 7 ≠ 0xFF →
    exec (.pop reg) s =
      .next { s with
        x := (s.x.set r (s.mem.read (s.reg 7).toNat)).set 7 (s.reg 7 + 1)
        pc := BitVec.ofNat 9 (s.pc.toNat + 2) }) ∧
  (∀ (reg : Byte) (s : State), reg.toNat = 7 → s.reg 7 ≠ 0xFF → s.mem.read (s.reg 7).toNat ≠ 0xFF →
    exec (.pop reg) s =
      .next { s with
        x := s.x.set 7 (s.mem.read (s.reg 7).toNat + 1)
        pc := BitVec.ofNat 9 (s.pc.toNat + 2) }) ∧
  (∀ (reg : Byte) (s : State), reg.toNat = 7 → s.reg 7 ≠ 0xFF → s.mem.read (s.reg 7).toNat = 0xFF →
    exec (.pop reg) s = .next { s with run := .halted, cause := .stackUnderflow })

/-- R160, with R154's row for CALL R7: control goes to the decremented pointer. -/
def Obligations.CallStoresTheReturnAddressAndJumps : Prop :=
  FetchedAs 0x50 1 (fun reg _ => .call reg) ∧
  (∀ (reg : Byte) (s : State), 7 < reg.toNat ∨ s.reg 7 = 0 ∨ 255 < s.pc.toNat + 2 →
    exec (.call reg) s = .next { s with run := .halted, cause := .outOfRange }) ∧
  (∀ (r : Fin 8) (reg : Byte) (s : State), reg.toNat = r.val → s.reg 7 ≠ 0 → s.pc.toNat + 2 ≤ 255 →
    exec (.call reg) s =
      .next { s with
        x := s.x.set 7 (s.reg 7 - 1)
        mem := s.mem.write (s.reg 7 - 1).toNat (BitVec.ofNat 8 (s.pc.toNat + 2))
        pc := (if r = 7 then s.reg 7 - 1 else s.reg r).zeroExtend 9 })

/-- R161. -/
def Obligations.RetJumpsToTheStackTop : Prop :=
  FetchedAs 0x11 0 (fun _ _ => .ret) ∧
  (∀ s : State, s.reg 7 = 0xFF → exec .ret s = .next { s with run := .halted, cause := .stackUnderflow }) ∧
  (∀ s : State, s.reg 7 ≠ 0xFF →
    exec .ret s =
      .next { s with
        x := s.x.set 7 (s.reg 7 + 1)
        pc := (s.mem.read (s.reg 7).toNat).zeroExtend 9 })

/-- R170. -/
def Obligations.CmpSetsTheFlag : Prop :=
  FetchedAs 0xA7 2 (fun ra rb => .cmp ra rb) ∧
  (∀ (ra rb : Byte) (s : State), 7 < ra.toNat ∨ 7 < rb.toNat →
    exec (.cmp ra rb) s = .next { s with run := .halted, cause := .outOfRange }) ∧
  (∀ (i j : Fin 8) (ra rb : Byte) (s : State), ra.toNat = i.val → rb.toNat = j.val →
    exec (.cmp ra rb) s =
      .next { s with
        fl := if (s.reg i).toNat = (s.reg j).toNat then .equal
              else if (s.reg i).toNat < (s.reg j).toNat then .less else .greater
        pc := BitVec.ofNat 9 (s.pc.toNat + 3) })

/-- R172: the register index is checked only when the branch is taken. -/
def Obligations.JeqJumpsWhenEqual : Prop :=
  FetchedAs 0x55 1 (fun reg _ => .jeq reg) ∧
  (∀ (reg : Byte) (s : State), s.fl = .equal → 7 < reg.toNat →
    exec (.jeq reg) s = .next { s with run := .halted, cause := .outOfRange }) ∧
  (∀ (r : Fin 8) (reg : Byte) (s : State), s.fl = .equal → reg.toNat = r.val →
    exec (.jeq reg) s = .next { s with pc := (s.reg r).zeroExtend 9 }) ∧
  (∀ (reg : Byte) (s : State), s.fl ≠ .equal →
    exec (.jeq reg) s = .next { s with pc := BitVec.ofNat 9 (s.pc.toNat + 2) })

/-- R173: taken also when the flag is UNSET; the register index is checked only when the branch is taken. -/
def Obligations.JneJumpsWhenNotEqual : Prop :=
  FetchedAs 0x56 1 (fun reg _ => .jne reg) ∧
  (∀ (reg : Byte) (s : State), s.fl ≠ .equal → 7 < reg.toNat →
    exec (.jne reg) s = .next { s with run := .halted, cause := .outOfRange }) ∧
  (∀ (r : Fin 8) (reg : Byte) (s : State), s.fl ≠ .equal → reg.toNat = r.val →
    exec (.jne reg) s = .next { s with pc := (s.reg r).zeroExtend 9 }) ∧
  (∀ (reg : Byte) (s : State), s.fl = .equal →
    exec (.jne reg) s = .next { s with pc := BitVec.ofNat 9 (s.pc.toNat + 2) })

/-- R174. -/
def Obligations.JmpJumps : Prop :=
  FetchedAs 0x54 1 (fun reg _ => .jmp reg) ∧
  (∀ (reg : Byte) (s : State), 7 < reg.toNat →
    exec (.jmp reg) s = .next { s with run := .halted, cause := .outOfRange }) ∧
  (∀ (r : Fin 8) (reg : Byte) (s : State), reg.toNat = r.val →
    exec (.jmp reg) s = .next { s with pc := (s.reg r).zeroExtend 9 })

/-- R185. -/
def Obligations.HltHalts : Prop :=
  FetchedAs 0x01 0 (fun _ _ => .hlt) ∧ (∀ s : State, exec .hlt s = .next { s with run := .halted, cause := .hlt })

/-- R104, R142: the ALU on every select. -/
def Obligations.AluAddsAndMultipliesModulo256 : Prop :=
  ∀ p q : Byte, alu 0b00 p q = .ok (BitVec.ofNat 8 ((p.toNat + q.toNat) % 256)) ∧
    alu 0b01 p q = .ok (BitVec.ofNat 8 ((p.toNat * q.toNat) % 256)) ∧
    alu 0b10 p q = .error .unsupportedOperation ∧ alu 0b11 p q = .error .unsupportedOperation

/-- R25, R92: a register operand byte above 7 raises `OutOfRange` in every instruction that accesses the register, that is in
all but an untaken JEQ or JNE. -/
def Obligations.IllegalRegisterByteRaisesOutOfRange : Prop :=
  ∀ (i : Instr) (s : State), i.wellFormed = false → (∀ reg, i = .jeq reg → s.fl = .equal) →
    (∀ reg, i = .jne reg → s.fl ≠ .equal) → exec i s = .next { s with run := .halted, cause := .outOfRange }

/-! ## Frames -/

/-- LDI and ADD change no register but their first operand, and neither the flag, the output nor any cell of memory; `run` and
`cause` change only in the exception `OutOfRange`. -/
def Obligations.FrameOfLdiAndAdd : Prop :=
  ∀ (i : Instr) (d : Byte) (s t : State), ((∃ imm, i = .ldi d imm) ∨ (∃ rb, i = .add d rb)) → exec i s = .next t →
    (∀ r : Fin 8, r.val ≠ d.toNat → t.reg r = s.reg r) ∧ t.fl = s.fl ∧ t.out = s.out ∧
    (∀ a, t.mem.read a = s.mem.read a) ∧
    ((t.run = s.run ∧ t.cause = s.cause) ∨ (t.run = .halted ∧ t.cause = .outOfRange))

/-- PRN and MUL change no register, not the flag and no cell of memory, and append at most one value to the output; `run` and
`cause` change only in the exception `OutOfRange`. -/
def Obligations.FrameOfPrnAndMul : Prop :=
  ∀ (i : Instr) (s t : State), ((∃ reg, i = .prn reg) ∨ (∃ ra rb, i = .mul ra rb)) → exec i s = .next t →
    (∀ r : Fin 8, t.reg r = s.reg r) ∧ t.fl = s.fl ∧ (∀ a, t.mem.read a = s.mem.read a) ∧
    ((t.run = s.run ∧ t.cause = s.cause ∧ ∃ v, t.out = s.out ++ [v]) ∨
      (t.run = .halted ∧ t.cause = .outOfRange ∧ t.out = s.out))

/-- PUSH and CALL change no register but `x[7]`, neither the flag nor the output, and no cell of memory but the one at the
decremented stack pointer; where the decrement raises, no cell at all. -/
def Obligations.FrameOfPushAndCall : Prop :=
  ∀ (i : Instr) (s t : State), ((∃ reg, i = .push reg) ∨ (∃ reg, i = .call reg)) → exec i s = .next t →
    (∀ r : Fin 8, r ≠ 7 → t.reg r = s.reg r) ∧ t.fl = s.fl ∧ t.out = s.out ∧
    (∀ sp, spDec s = .ok sp → ∀ a, a ≠ sp.toNat → t.mem.read a = s.mem.read a) ∧
    (∀ e, spDec s = .error e → ∀ a, t.mem.read a = s.mem.read a) ∧
    ((t.run = s.run ∧ t.cause = s.cause) ∨
      (t.run = .halted ∧ t.cause = .outOfRange ∧ t.reg 7 = s.reg 7 ∧ ∀ a, t.mem.read a = s.mem.read a))

/-- POP and RET change no register but `x[7]` and POP's operand, neither the flag, the output nor any cell of memory; `run` and
`cause` change only in an exception, which leaves `x[7]` and POP's operand alone too. -/
def Obligations.FrameOfPopAndRet : Prop :=
  ∀ (i : Instr) (s t : State), ((∃ reg, i = .pop reg) ∨ i = .ret) → exec i s = .next t →
    (∀ r : Fin 8, r ≠ 7 → (∀ reg, i = .pop reg → r.val ≠ reg.toNat) → t.reg r = s.reg r) ∧ t.fl = s.fl ∧ t.out = s.out ∧
    (∀ a, t.mem.read a = s.mem.read a) ∧
    ((t.run = s.run ∧ t.cause = s.cause) ∨
      (t.run = .halted ∧ (t.cause = .outOfRange ∨ t.cause = .stackUnderflow) ∧ ∀ r : Fin 8, t.reg r = s.reg r))

/-- CMP, JEQ, JNE, JMP and HLT change no register, not the output and no cell of memory; only CMP changes the flag; `run` and
`cause` change only in HLT and in the exception `OutOfRange`. -/
def Obligations.FrameOfCompareBranchAndHalt : Prop :=
  ∀ (i : Instr) (s t : State),
    ((∃ ra rb, i = .cmp ra rb) ∨ (∃ reg, i = .jeq reg) ∨ (∃ reg, i = .jne reg) ∨ (∃ reg, i = .jmp reg) ∨ i = .hlt) →
    exec i s = .next t →
    (∀ r : Fin 8, t.reg r = s.reg r) ∧ t.out = s.out ∧ (∀ a, t.mem.read a = s.mem.read a) ∧
    ((∀ ra rb, i ≠ .cmp ra rb) → t.fl = s.fl) ∧
    ((i ≠ .hlt ∧ t.run = s.run ∧ t.cause = s.cause) ∨
      (i ≠ .hlt ∧ t.run = .halted ∧ t.cause = .outOfRange ∧ t.pc = s.pc ∧ t.fl = s.fl) ∨
      (i = .hlt ∧ t.run = .halted ∧ t.cause = .hlt ∧ t.pc = s.pc))

/-! ## Rules over all instructions -/

/-- R52: memory is written only by a step of PUSH or CALL, one cell, the one at the decremented stack pointer. -/
def Obligations.MemoryIsWrittenOnlyByPushAndCall : Prop :=
  ∀ s t : State, step s = .next t →
    t.mem = s.mem ∨
    ∃ (reg sp v : Byte), (fetch s = .ok (.push reg) ∨ fetch s = .ok (.call reg)) ∧ spDec s = .ok sp ∧
      t.mem = s.mem.write sp.toNat v

/-- R171: the flag starts UNSET; a step of CMP moves it from any value to its comparison's result; every other instruction, and
every step that halts, leaves it; no step leads to UNSET. -/
def Obligations.FlagMovesOnlyByCmp : Prop :=
  State.reset.fl = .unset ∧
  ∀ s t : State, step s = .next t →
    (∀ (i j : Fin 8) (ra rb : Byte), ra.toNat = i.val → rb.toNat = j.val → fetch s = .ok (.cmp ra rb) →
      t.fl = if (s.reg i).toNat = (s.reg j).toNat then .equal
             else if (s.reg i).toNat < (s.reg j).toNat then .less else .greater) ∧
    ((∀ ra rb, fetch s ≠ .ok (.cmp ra rb)) ∨ t.run = .halted → t.fl = s.fl) ∧
    (s.fl ≠ .unset → t.fl ≠ .unset)

/-- R35: a step appends to the output only when it is a PRN, its register, or a MUL, its product, one value; nothing is ever
removed or reordered. -/
def Obligations.OutputGrowsOnlyByPrnAndMul : Prop :=
  ∀ s t : State, step s = .next t →
    t.out = s.out ∨
    (∃ (r : Fin 8) (reg : Byte), reg.toNat = r.val ∧ fetch s = .ok (.prn reg) ∧ t.out = s.out ++ [s.reg r]) ∨
    (∃ (i j : Fin 8) (ra rb : Byte), ra.toNat = i.val ∧ rb.toNat = j.val ∧ fetch s = .ok (.mul ra rb) ∧
      t.out = s.out ++ [BitVec.ofNat 8 (((s.reg i).toNat * (s.reg j).toNat) % 256)])

/-- R176: no program can tell LESS, GREATER and UNSET apart: from states that differ only in the flag, and agree on whether it is
EQUAL, a step leads to such states again. -/
def Obligations.UnequalFlagsAreIndistinguishable : Prop :=
  ∀ s s' : State, FlagTwins s s' → s.run = .running →
    ∃ t t', step s = .next t ∧ step s' = .next t' ∧ FlagTwins t t'

/-- R64: a cell stored by PUSH or CALL where the next step fetches its opcode is the byte that step fetches. -/
def Obligations.StoreIsSeenByTheNextFetch : Prop :=
  (∀ (r : Fin 8) (reg : Byte) (s t : State) (bytes : List Byte), reg.toNat = r.val → s.reg 7 ≠ 0 →
    exec (.push reg) s = .next t → t.pc.toNat = (s.reg 7).toNat - 1 → fetchBytes t = .ok bytes →
    bytes.head? = some (if r = 7 then s.reg 7 - 1 else s.reg r)) ∧
  (∀ (reg : Byte) (s t : State) (bytes : List Byte), reg.toNat ≤ 7 → s.reg 7 ≠ 0 → s.pc.toNat + 2 ≤ 255 →
    exec (.call reg) s = .next t → t.pc.toNat = (s.reg 7).toNat - 1 → fetchBytes t = .ok bytes →
    bytes.head? = some (BitVec.ofNat 8 (s.pc.toNat + 2)))

/-! ## Laws of several steps -/

/-- R133: LDI into a register and PRN of it, two steps, emit exactly the value. -/
def Obligations.LdiThenPrnEmitsTheValue : Prop :=
  ∀ (s : State) (r : Fin 8) (reg v : Byte), s.run = .running → s.pc.toNat ≤ 251 → reg.toNat = r.val →
    s.mem.read s.pc.toNat = 0x82 → s.mem.read (s.pc.toNat + 1) = reg → s.mem.read (s.pc.toNat + 2) = v →
    s.mem.read (s.pc.toNat + 3) = 0x47 → s.mem.read (s.pc.toNat + 4) = reg →
    ∃ t, step s = .next t ∧
      step t = .next { s with x := s.x.set r v, out := s.out ++ [v], pc := BitVec.ofNat 9 (s.pc.toNat + 5) }

/-- R155: PUSH of a register and POP of it, two steps, restore the register and the stack pointer, also for register 7. -/
def Obligations.PushThenPopRestores : Prop :=
  ∀ (s : State) (r : Fin 8) (reg : Byte), s.run = .running → s.pc.toNat ≤ 252 → reg.toNat = r.val → s.reg 7 ≠ 0 →
    s.mem.read s.pc.toNat = 0x45 → s.mem.read (s.pc.toNat + 1) = reg →
    s.mem.read (s.pc.toNat + 2) = 0x46 → s.mem.read (s.pc.toNat + 3) = reg →
    (∀ k : Nat, k < 4 → s.pc.toNat + k ≠ (s.reg 7).toNat - 1) →
    ∃ t, step s = .next t ∧
      step t = .next { s with
        mem := s.mem.write ((s.reg 7).toNat - 1) (if r = 7 then s.reg 7 - 1 else s.reg r)
        pc := BitVec.ofNat 9 (s.pc.toNat + 4) }

/-- R162: after a CALL, a RET reached with the stack pointer and the stacked cell as the CALL left them goes to the instruction
after the CALL and restores the stack pointer. -/
def Obligations.RetReturnsAfterTheCall : Prop :=
  ∀ (s : State) (reg : Byte), reg.toNat ≤ 7 → s.reg 7 ≠ 0 → s.pc.toNat ≤ 253 →
    ∃ t, exec (.call reg) s = .next t ∧
      ∀ u : State, u.reg 7 = t.reg 7 → u.mem.read (u.reg 7).toNat = t.mem.read (t.reg 7).toNat →
        ∃ v, exec .ret u = .next v ∧ v.pc.toNat = s.pc.toNat + 2 ∧ v.reg 7 = s.reg 7

/-- R156: the stack is last-in first-out: registers pushed one after another lie below the old stack pointer in order, and popping
them in the opposite order restores every register. -/
def Obligations.StackIsLastInFirstOut : Prop :=
  ∀ (rs : List Byte) (s : State), (∀ r ∈ rs, r.toNat ≤ 6) → rs.length ≤ (s.reg 7).toNat →
    ∃ t, execAll (rs.map .push ++ rs.reverse.map .pop) s = .next t ∧ t.x = s.x ∧ t.fl = s.fl ∧ t.out = s.out ∧
      t.run = s.run ∧ t.cause = s.cause ∧
      (∀ (k : Nat) (h : k < rs.length) (r : Fin 8), (rs[k]'h).toNat = r.val →
        t.mem.read ((s.reg 7).toNat - 1 - k) = s.reg r) ∧
      (∀ a, a < (s.reg 7).toNat - rs.length ∨ (s.reg 7).toNat ≤ a → t.mem.read a = s.mem.read a)

/-! ## Ports -/

/-- R33, R109: the codes of the port `cause`, and the port `halted`. -/
def Obligations.PortsShowRunAndCause : Prop :=
  [Cause.none, .hlt, .unknownOpcode, .outOfRange, .stackUnderflow, .unsupportedOperation].map causeCode = [0, 1, 2, 3, 4, 5] ∧
  ∀ s : State, (haltedPort s = true ↔ s.run = .halted) ∧ causePort s = causeCode s.cause
end

