-- ==== Sys2Proof/Laws/Decode.lean ====
section
/-! SUPPORT. The opcode table read both ways, and the size of an instruction. -/

namespace Sys2Proof

/-- The decoder finds every mnemonic under its own byte. -/
@[simp] theorem lookupOpcode_opc (mn : Mnemonic) : lookupOpcode (opc mn) = some mn := by cases mn <;> decide

/-- The decoder answers a mnemonic for that mnemonic's byte only. -/
theorem lookupOpcode_some {op : Byte} {mn : Mnemonic} (h : lookupOpcode op = some mn) : op = opc mn := by
  have := List.find?_some h
  simpa using (beq_iff_eq.mp this).symm

/-- The map `OPC` is injective (R5). -/
theorem opc_injective {m n : Mnemonic} (h : opc m = opc n) : m = n := by
  have := lookupOpcode_opc m
  rw [h, lookupOpcode_opc] at this
  exact (Option.some.inj this).symm

@[simp] theorem operandCountOf_opc (mn : Mnemonic) : operandCountOf (opc mn) = operandCount mn := by
  simp [operandCountOf]

theorem operandCount_le_two (mn : Mnemonic) : operandCount mn ≤ 2 := by cases mn <;> decide

end Sys2Proof
end

