-- ==== Sys2Proof/Laws/Memory.lean ====
section
/-! SUPPORT. The laws of memory: a cell reads back what was written, a write leaves every other cell alone, every memory operation
keeps the canonical form, reset's memory has it, and canonical memories that read the same are the same data. -/

namespace Sys2Proof.Machine

theorem Memory.read_clear (m : Memory) (a b : Nat) :
    (m.clear a).read b = if b = a then Memory.unlisted else m.read b := by
  induction m with
  | nil => simp [Memory.clear, Memory.read]
  | cons c m ih =>
    obtain ⟨k, w⟩ := c
    by_cases hk : k = a <;> by_cases hb : b = a <;> by_cases hkb : k = b <;>
      simp_all [Memory.clear, Memory.read]

theorem Memory.read_insert (m : Memory) (a b : Nat) (v : Byte) (hm : ∀ c ∈ m, c.1 ≠ a) :
    (m.insert a v).read b = if b = a then v else m.read b := by
  induction m with
  | nil =>
    by_cases hb : b = a
    · simp [Memory.insert, Memory.read, hb]
    · have : a ≠ b := fun e => hb e.symm
      simp [Memory.insert, Memory.read, hb, this]
  | cons c m ih =>
    obtain ⟨k, w⟩ := c
    have hk : k ≠ a := hm (k, w) (by simp)
    have ih := ih (fun c hc => hm c (by simp [hc]))
    by_cases hlt : a < k
    · by_cases hb : b = a
      · subst hb; simp [Memory.insert, Memory.read, hlt]
      · have : a ≠ b := fun e => hb e.symm
        simp [Memory.insert, Memory.read, hlt, hb, this]
    · by_cases hkb : k = b
      · subst hkb; simp [Memory.insert, Memory.read, hlt, hk]
      · simp [Memory.insert, Memory.read, hlt, hkb, ih]

/-- Read after write, over every memory. -/
@[simp] theorem Memory.read_write (m : Memory) (a b : Nat) (v : Byte) :
    (m.write a v).read b = if b = a then v else m.read b := by
  unfold Memory.write
  split
  · next h => rw [Memory.read_clear]; split <;> simp_all
  · rw [Memory.read_insert _ _ _ _ (by simp [Memory.clear]), Memory.read_clear]
    split <;> simp_all

theorem Memory.wfFrom_mono {lo lo' : Nat} {m : Memory} (h : lo' ≤ lo) (hm : Memory.wfFrom lo m = true) :
    Memory.wfFrom lo' m = true := by
  cases m with
  | nil => rfl
  | cons c m =>
    obtain ⟨k, w⟩ := c
    simp only [Memory.wfFrom, Bool.and_eq_true, decide_eq_true_eq] at hm ⊢
    exact ⟨⟨⟨by omega, hm.1.1.2⟩, hm.1.2⟩, hm.2⟩

theorem Memory.wfFrom_clear {lo : Nat} {m : Memory} (a : Nat) (hm : Memory.wfFrom lo m = true) :
    Memory.wfFrom lo (m.clear a) = true := by
  induction m generalizing lo with
  | nil => rfl
  | cons c m ih =>
    obtain ⟨k, w⟩ := c
    simp only [Memory.wfFrom, Bool.and_eq_true, decide_eq_true_eq] at hm
    by_cases hk : k = a
    · simpa [Memory.clear, hk] using Memory.wfFrom_mono (by omega) (ih hm.2)
    · have : Memory.clear ((k, w) :: m) a = (k, w) :: Memory.clear m a := by simp [Memory.clear, hk]
      rw [this]
      simp only [Memory.wfFrom, Bool.and_eq_true, decide_eq_true_eq]
      exact ⟨hm.1, ih hm.2⟩

theorem Memory.wfFrom_insert {lo : Nat} {m : Memory} {a : Nat} {v : Byte} (hv : v ≠ Memory.unlisted) (hlo : lo ≤ a)
    (ha : a < Config.N) (hne : ∀ c ∈ m, c.1 ≠ a) (hm : Memory.wfFrom lo m = true) :
    Memory.wfFrom lo (m.insert a v) = true := by
  induction m generalizing lo with
  | nil => simp_all [Memory.insert, Memory.wfFrom]
  | cons c m ih =>
    obtain ⟨k, w⟩ := c
    have hk : k ≠ a := hne (k, w) (by simp)
    simp only [Memory.wfFrom, Bool.and_eq_true, decide_eq_true_eq] at hm
    by_cases hlt : a < k
    · simp only [Memory.insert, hlt, if_true, Memory.wfFrom, Bool.and_eq_true, decide_eq_true_eq]
      exact ⟨⟨⟨hlo, ha⟩, by simpa using hv⟩, ⟨⟨by omega, hm.1.1.2⟩, hm.1.2⟩, hm.2⟩
    · simp only [Memory.insert, hlt, if_false, Memory.wfFrom, Bool.and_eq_true, decide_eq_true_eq]
      exact ⟨hm.1, ih (by omega) (fun c hc => hne c (by simp [hc])) hm.2⟩

/-- A write to a cell of memory keeps the canonical form. -/
theorem Memory.wf_write {m : Memory} {a : Nat} (v : Byte) (ha : a < Config.N) (hm : m.wf = true) :
    (m.write a v).wf = true := by
  unfold Memory.wf Memory.write at *
  split
  · exact Memory.wfFrom_clear a hm
  · next hv => exact Memory.wfFrom_insert hv (Nat.zero_le _) ha (by simp [Memory.clear]) (Memory.wfFrom_clear a hm)

theorem memWrite_keeps_wf {a : Nat} {v : Byte} {s t : State} (h : memWrite a v s = .ok t) (hs : s.mem.wf = true) :
    t.mem.wf = true := by
  unfold memWrite at h
  split at h
  · cases h
  · cases h; exact Memory.wf_write v (by simp only [Config.N] at *; omega) hs

theorem placeBytes_keeps_wf {m : Memory} {a : Nat} {bs : List Byte} (hm : m.wf = true) :
    (placeBytes m a bs).wf = true := by
  induction bs generalizing m a with
  | nil => exact hm
  | cons b bs ih =>
    unfold placeBytes
    split
    · next h => exact ih (Memory.wf_write b h hm)
    · exact hm

theorem reset_mem_wf : State.reset.mem.wf = true := rfl

theorem Memory.read_below {lo : Nat} {m : Memory} (hm : Memory.wfFrom lo m = true) {a : Nat} (ha : a < lo) :
    m.read a = Memory.unlisted := by
  induction m generalizing lo with
  | nil => rfl
  | cons c m ih =>
    obtain ⟨k, w⟩ := c
    simp only [Memory.wfFrom, Bool.and_eq_true, decide_eq_true_eq] at hm
    have : k ≠ a := by omega
    simp [Memory.read, this, ih hm.2 (by omega)]

end Sys2Proof.Machine
end

