-- ==== Sys2Proof/Laws/State.lean ====
section
/-! SUPPORT. What each update of the state does to each field: one lemma per field per update, and what a register reads after a
register write. -/

namespace Sys2Proof.Machine

@[simp] theorem State.setReg_x (s : State) (r : Fin 8) (v : Byte) : (s.setReg r v).x = s.x.set r v := rfl
@[simp] theorem State.setReg_pc (s : State) (r : Fin 8) (v : Byte) : (s.setReg r v).pc = s.pc := rfl
@[simp] theorem State.setReg_fl (s : State) (r : Fin 8) (v : Byte) : (s.setReg r v).fl = s.fl := rfl
@[simp] theorem State.setReg_run (s : State) (r : Fin 8) (v : Byte) : (s.setReg r v).run = s.run := rfl
@[simp] theorem State.setReg_cause (s : State) (r : Fin 8) (v : Byte) : (s.setReg r v).cause = s.cause := rfl
@[simp] theorem State.setReg_mem (s : State) (r : Fin 8) (v : Byte) : (s.setReg r v).mem = s.mem := rfl
@[simp] theorem State.setReg_out (s : State) (r : Fin 8) (v : Byte) : (s.setReg r v).out = s.out := rfl

@[simp] theorem State.setSp_x (s : State) (v : Byte) : (s.setSp v).x = s.x.set Config.SPI v := rfl
@[simp] theorem State.setSp_pc (s : State) (v : Byte) : (s.setSp v).pc = s.pc := rfl
@[simp] theorem State.setSp_fl (s : State) (v : Byte) : (s.setSp v).fl = s.fl := rfl
@[simp] theorem State.setSp_run (s : State) (v : Byte) : (s.setSp v).run = s.run := rfl
@[simp] theorem State.setSp_cause (s : State) (v : Byte) : (s.setSp v).cause = s.cause := rfl
@[simp] theorem State.setSp_mem (s : State) (v : Byte) : (s.setSp v).mem = s.mem := rfl
@[simp] theorem State.setSp_out (s : State) (v : Byte) : (s.setSp v).out = s.out := rfl

@[simp] theorem State.loadSeq_x (s : State) (n : Nat) : (s.loadSeq n).x = s.x := rfl
@[simp] theorem State.loadSeq_pc (s : State) (n : Nat) : (s.loadSeq n).pc = BitVec.ofNat 9 (s.pc.toNat + 1 + n) := rfl
@[simp] theorem State.loadSeq_fl (s : State) (n : Nat) : (s.loadSeq n).fl = s.fl := rfl
@[simp] theorem State.loadSeq_run (s : State) (n : Nat) : (s.loadSeq n).run = s.run := rfl
@[simp] theorem State.loadSeq_cause (s : State) (n : Nat) : (s.loadSeq n).cause = s.cause := rfl
@[simp] theorem State.loadSeq_mem (s : State) (n : Nat) : (s.loadSeq n).mem = s.mem := rfl
@[simp] theorem State.loadSeq_out (s : State) (n : Nat) : (s.loadSeq n).out = s.out := rfl

@[simp] theorem State.loadTarget_x (s : State) (b : Byte) : (s.loadTarget b).x = s.x := rfl
@[simp] theorem State.loadTarget_pc (s : State) (b : Byte) : (s.loadTarget b).pc = b.zeroExtend 9 := rfl
@[simp] theorem State.loadTarget_fl (s : State) (b : Byte) : (s.loadTarget b).fl = s.fl := rfl
@[simp] theorem State.loadTarget_run (s : State) (b : Byte) : (s.loadTarget b).run = s.run := rfl
@[simp] theorem State.loadTarget_cause (s : State) (b : Byte) : (s.loadTarget b).cause = s.cause := rfl
@[simp] theorem State.loadTarget_mem (s : State) (b : Byte) : (s.loadTarget b).mem = s.mem := rfl
@[simp] theorem State.loadTarget_out (s : State) (b : Byte) : (s.loadTarget b).out = s.out := rfl

@[simp] theorem State.setFl_x (s : State) (f : Flag) : (s.setFl f).x = s.x := rfl
@[simp] theorem State.setFl_pc (s : State) (f : Flag) : (s.setFl f).pc = s.pc := rfl
@[simp] theorem State.setFl_fl (s : State) (f : Flag) : (s.setFl f).fl = f := rfl
@[simp] theorem State.setFl_run (s : State) (f : Flag) : (s.setFl f).run = s.run := rfl
@[simp] theorem State.setFl_cause (s : State) (f : Flag) : (s.setFl f).cause = s.cause := rfl
@[simp] theorem State.setFl_mem (s : State) (f : Flag) : (s.setFl f).mem = s.mem := rfl
@[simp] theorem State.setFl_out (s : State) (f : Flag) : (s.setFl f).out = s.out := rfl

@[simp] theorem State.emit_x (s : State) (v : Byte) : (s.emit v).x = s.x := rfl
@[simp] theorem State.emit_pc (s : State) (v : Byte) : (s.emit v).pc = s.pc := rfl
@[simp] theorem State.emit_fl (s : State) (v : Byte) : (s.emit v).fl = s.fl := rfl
@[simp] theorem State.emit_run (s : State) (v : Byte) : (s.emit v).run = s.run := rfl
@[simp] theorem State.emit_cause (s : State) (v : Byte) : (s.emit v).cause = s.cause := rfl
@[simp] theorem State.emit_mem (s : State) (v : Byte) : (s.emit v).mem = s.mem := rfl
@[simp] theorem State.emit_out (s : State) (v : Byte) : (s.emit v).out = s.out ++ [v] := rfl

@[simp] theorem State.setMem_x (s : State) (m : Memory) : (s.setMem m).x = s.x := rfl
@[simp] theorem State.setMem_pc (s : State) (m : Memory) : (s.setMem m).pc = s.pc := rfl
@[simp] theorem State.setMem_fl (s : State) (m : Memory) : (s.setMem m).fl = s.fl := rfl
@[simp] theorem State.setMem_run (s : State) (m : Memory) : (s.setMem m).run = s.run := rfl
@[simp] theorem State.setMem_cause (s : State) (m : Memory) : (s.setMem m).cause = s.cause := rfl
@[simp] theorem State.setMem_mem (s : State) (m : Memory) : (s.setMem m).mem = m := rfl
@[simp] theorem State.setMem_out (s : State) (m : Memory) : (s.setMem m).out = s.out := rfl

@[simp] theorem State.halt_x (s : State) (c : Cause) : (s.halt c).x = s.x := rfl
@[simp] theorem State.halt_pc (s : State) (c : Cause) : (s.halt c).pc = s.pc := rfl
@[simp] theorem State.halt_fl (s : State) (c : Cause) : (s.halt c).fl = s.fl := rfl
@[simp] theorem State.halt_run (s : State) (c : Cause) : (s.halt c).run = .halted := rfl
@[simp] theorem State.halt_cause (s : State) (c : Cause) : (s.halt c).cause = c := rfl
@[simp] theorem State.halt_mem (s : State) (c : Cause) : (s.halt c).mem = s.mem := rfl
@[simp] theorem State.halt_out (s : State) (c : Cause) : (s.halt c).out = s.out := rfl

@[simp] theorem State.raise_x (s : State) (e : ErrorKind) : (s.raise e).x = s.x := rfl
@[simp] theorem State.raise_pc (s : State) (e : ErrorKind) : (s.raise e).pc = s.pc := rfl
@[simp] theorem State.raise_fl (s : State) (e : ErrorKind) : (s.raise e).fl = s.fl := rfl
@[simp] theorem State.raise_run (s : State) (e : ErrorKind) : (s.raise e).run = .halted := rfl
@[simp] theorem State.raise_cause (s : State) (e : ErrorKind) : (s.raise e).cause = e.cause := rfl
@[simp] theorem State.raise_mem (s : State) (e : ErrorKind) : (s.raise e).mem = s.mem := rfl
@[simp] theorem State.raise_out (s : State) (e : ErrorKind) : (s.raise e).out = s.out := rfl

/-- A register reads back what was written to it, and a write leaves the other registers alone. -/
@[simp] theorem State.reg_setReg (s : State) (r q : Fin 8) (v : Byte) :
    (s.setReg r v).reg q = if q = r then v else s.reg q := by
  by_cases h : q = r
  · subst h; simp [State.reg, State.setReg]
  · have : r.val ≠ q.val := fun e => h (Fin.ext e.symm)
    simp [State.reg, State.setReg, this, h]

@[simp] theorem State.reg_setSp (s : State) (q : Fin 8) (v : Byte) :
    (s.setSp v).reg q = if q = Config.SPI then v else s.reg q := State.reg_setReg s Config.SPI q v

@[simp] theorem State.reg_loadSeq (s : State) (n : Nat) (q : Fin 8) : (s.loadSeq n).reg q = s.reg q := rfl
@[simp] theorem State.reg_loadTarget (s : State) (b : Byte) (q : Fin 8) : (s.loadTarget b).reg q = s.reg q := rfl
@[simp] theorem State.reg_setFl (s : State) (f : Flag) (q : Fin 8) : (s.setFl f).reg q = s.reg q := rfl
@[simp] theorem State.reg_emit (s : State) (v : Byte) (q : Fin 8) : (s.emit v).reg q = s.reg q := rfl
@[simp] theorem State.reg_halt (s : State) (c : Cause) (q : Fin 8) : (s.halt c).reg q = s.reg q := rfl
@[simp] theorem State.reg_raise (s : State) (e : ErrorKind) (q : Fin 8) : (s.raise e).reg q = s.reg q := rfl

@[simp] theorem State.reg_setMem (s : State) (m : Memory) (q : Fin 8) : (s.setMem m).reg q = s.reg q := rfl

theorem State.sp_eq (s : State) : s.sp = s.reg 7 := rfl

theorem State.setSp_eq (s : State) (v : Byte) : s.setSp v = s.setReg 7 v := rfl

/-- Registers that read the same are the same register file. -/
theorem State.x_ext {s t : State} (h : ∀ r : Fin 8, s.reg r = t.reg r) : s.x = t.x := by
  apply Vector.ext
  intro k hk
  exact h ⟨k, hk⟩

end Sys2Proof.Machine
end

