-- ==== Sys2Proof/Laws/Ops.lean ====
section
/-! SUPPORT. For each shared operation, one lemma that says everything it can answer. -/

namespace Sys2Proof.Machine

/-- A step of an instruction ends in the state its pseudocode reached or in an exception taken from the state it began in. -/
theorem conclude_next {s t : State} {r : Except ErrorKind State} (h : conclude s r = .next t) :
    r = .ok t ∨ ∃ e, r = .error e ∧ t = s.raise e := by
  cases r with
  | ok u => exact .inl (by simpa [conclude] using h)
  | error e => exact .inr ⟨e, rfl, by simpa [conclude, eq_comm] using h⟩

/-- An instruction always answers a next state. -/
theorem conclude_answers (s : State) (r : Except ErrorKind State) : ∃ t, conclude s r = .next t := by
  cases r <;> exact ⟨_, rfl⟩

theorem whenRunning_running {s : State} (h : s.run = .running) (o : StepOutcome) : whenRunning s o = o := by
  simp [whenRunning, h]

theorem whenRunning_next {s t : State} {o : StepOutcome} (h : whenRunning s o = .next t) :
    s.run = .running ∧ o = .next t := by
  unfold whenRunning at h
  split at h
  · next hr => exact ⟨hr, h⟩
  · cases h

theorem memRead_inRange {a : Nat} (h : a ≤ 255) (s : State) : memRead a s = .ok (s.mem.read a) :=
  if_neg (show ¬ a > 255 by omega)

theorem memRead_outOfRange {a : Nat} (h : 255 < a) (s : State) : memRead a s = .error .outOfRange :=
  if_pos (show a > 255 from h)

/-- A cell at the address a byte holds is always in range (`N = 2^W`, R53). -/
@[simp] theorem memRead_byte (b : Byte) (s : State) : memRead b.toNat s = .ok (s.mem.read b.toNat) :=
  memRead_inRange (by have := b.isLt; omega) s

theorem memWrite_inRange {a : Nat} (h : a ≤ 255) (v : Byte) (s : State) :
    memWrite a v s = .ok (s.setMem (s.mem.write a v)) :=
  if_neg (show ¬ a > 255 by omega)

theorem memWrite_outOfRange {a : Nat} (h : 255 < a) (v : Byte) (s : State) : memWrite a v s = .error .outOfRange :=
  if_pos (show a > 255 from h)

@[simp] theorem memWrite_byte (b v : Byte) (s : State) :
    memWrite b.toNat v s = .ok (s.setMem (s.mem.write b.toNat v)) :=
  memWrite_inRange (by have := b.isLt; omega) v s

theorem memRead_cases (a : Nat) (s : State) :
    (a ≤ 255 ∧ memRead a s = .ok (s.mem.read a)) ∨ (255 < a ∧ memRead a s = .error .outOfRange) := by
  by_cases h : a ≤ 255
  · exact .inl ⟨h, memRead_inRange h s⟩
  · exact .inr ⟨by omega, memRead_outOfRange (by omega) s⟩

theorem regIndex_legal {b : Byte} {r : Fin 8} (h : b.toNat = r.val) : regIndex b = .ok r := by
  have : b.toNat < 8 := by have := r.isLt; omega
  simp [regIndex, this]
  exact Fin.ext h

theorem regIndex_illegal {b : Byte} (h : 7 < b.toNat) : regIndex b = .error .outOfRange := by
  have : ¬ b.toNat < 8 := by omega
  simp [regIndex, this]

theorem regIndex_cases (b : Byte) :
    (∃ r : Fin 8, b.toNat = r.val ∧ regIndex b = .ok r) ∨ (7 < b.toNat ∧ regIndex b = .error .outOfRange) := by
  by_cases h : b.toNat < 8
  · exact .inl ⟨⟨b.toNat, h⟩, rfl, regIndex_legal rfl⟩
  · exact .inr ⟨by omega, regIndex_illegal (by omega)⟩

theorem spDec_ok {s : State} (h : s.reg 7 ≠ 0) : spDec s = .ok (s.reg 7 - 1) := if_neg h

theorem spDec_error {s : State} (h : s.reg 7 = 0) : spDec s = .error .outOfRange := if_pos h

theorem spDec_cases (s : State) :
    (s.reg 7 ≠ 0 ∧ spDec s = .ok (s.reg 7 - 1)) ∨ (s.reg 7 = 0 ∧ spDec s = .error .outOfRange) :=
  (Decidable.em (s.reg 7 = 0)).symm.imp (fun h => ⟨h, spDec_ok h⟩) (fun h => ⟨h, spDec_error h⟩)

theorem spInc_ok {s : State} (h : s.reg 7 ≠ 0xFF) : spInc s = .ok (s.reg 7 + 1) := if_neg h

theorem spInc_error {s : State} (h : s.reg 7 = 0xFF) : spInc s = .error .stackUnderflow := if_pos h

theorem spInc_cases (s : State) :
    (s.reg 7 ≠ 0xFF ∧ spInc s = .ok (s.reg 7 + 1)) ∨ (s.reg 7 = 0xFF ∧ spInc s = .error .stackUnderflow) :=
  (Decidable.em (s.reg 7 = 0xFF)).symm.imp (fun h => ⟨h, spInc_ok h⟩) (fun h => ⟨h, spInc_error h⟩)

theorem returnAddress_ok {s : State} (h : s.pc.toNat + 2 ≤ 255) :
    returnAddress s = .ok (BitVec.ofNat 8 (s.pc.toNat + 2)) :=
  if_neg (show ¬ s.pc.toNat + 2 > 255 by omega)

theorem returnAddress_error {s : State} (h : 255 < s.pc.toNat + 2) : returnAddress s = .error .outOfRange :=
  if_pos (show s.pc.toNat + 2 > 255 by omega)

theorem returnAddress_cases (s : State) :
    (s.pc.toNat + 2 ≤ 255 ∧ returnAddress s = .ok (BitVec.ofNat 8 (s.pc.toNat + 2)))
      ∨ (255 < s.pc.toNat + 2 ∧ returnAddress s = .error .outOfRange) :=
  (Nat.lt_or_ge 255 (s.pc.toNat + 2)).symm.imp (fun h => ⟨h, returnAddress_ok h⟩) (fun h => ⟨h, returnAddress_error h⟩)

@[simp] theorem alu_add (p q : Byte) : alu aluAdd p q = .ok (BitVec.ofNat 8 (p.toNat + q.toNat)) := rfl

@[simp] theorem alu_mul (p q : Byte) : alu aluMul p q = .ok (BitVec.ofNat 8 (p.toNat * q.toNat)) := by
  have : ¬ aluMul = aluAdd := by decide
  simp [alu, this]

end Sys2Proof.Machine
end

