-- ==== Sys2Proof/Laws/Launch.lean ====
section
/-! SUPPORT. What a write through the load port, a host's move and a session's step can do, each said once. -/

namespace Sys2Proof.Machine

@[simp] theorem launchState_mem (m : Memory) : (launchState m).mem = m := rfl

@[simp] theorem Session.state_waiting (m : Memory) : (Session.waiting m).state = launchState m := rfl

@[simp] theorem Session.state_started (s : State) : (Session.started s).state = s := rfl

theorem loadCell_cases (a : Nat) (v : Byte) (m : Memory) :
    (a ≤ 255 ∧ loadCell a v m = .ok (m.write a v)) ∨ (255 < a ∧ loadCell a v m = .error .outOfRange) := by
  by_cases h : a ≤ 255
  · exact .inl ⟨h, by rw [loadCell, memWrite_inRange h]; rfl⟩
  · exact .inr ⟨by omega, by rw [loadCell, memWrite_outOfRange (by omega)]⟩

theorem loadCell_keeps_wf {a : Nat} {v : Byte} {m n : Memory} (h : loadCell a v m = .ok n) (hm : m.wf = true) : n.wf = true := by
  obtain ⟨ha, hl⟩ | ⟨_, hl⟩ := loadCell_cases a v m <;> rw [hl] at h <;> cases h
  exact Memory.wf_write v (by simp only [Config.N]; omega) hm

theorem loadBytes_keeps_wf {a : Nat} {bs : List Byte} {m n : Memory} (h : loadBytes a bs m = .ok n) (hm : m.wf = true) :
    n.wf = true := by
  induction bs generalizing a m with
  | nil => cases h; exact hm
  | cons b bs ih =>
    simp only [loadBytes] at h
    split at h
    · next hc => exact ih h (loadCell_keeps_wf hc hm)
    · cases h

/-- A move that is made is a reset, one written cell before `start`, the `start` itself, or a `start` in HALTED, which does
nothing. -/
theorem hostMove_cases {mv : Move} {c d : Session} (h : hostMove mv c = .done d) :
    (mv = .rst ∧ d = .waiting []) ∨
    (∃ a v m n, mv = .load a v ∧ c = .waiting m ∧ loadCell a v m = .ok n ∧ d = .waiting n) ∨
    (∃ m, mv = .start ∧ c = .waiting m ∧ d = .started (launchState m)) ∨
    (∃ s, mv = .start ∧ c = .started s ∧ s.run = .halted ∧ d = c) := by
  cases mv with
  | rst => cases h; exact .inl ⟨rfl, rfl⟩
  | load a v =>
    cases c with
    | waiting m =>
      simp only [hostMove] at h
      split at h
      · next n hl => cases h; exact .inr (.inl ⟨a, v, m, n, rfl, rfl, hl, rfl⟩)
      · cases h
    | started s => cases h
  | start =>
    cases c with
    | waiting m => cases h; exact .inr (.inr (.inl ⟨m, rfl, rfl, rfl⟩))
    | started s =>
      simp only [hostMove] at h
      split at h
      · cases h
      · next hr => cases h; exact .inr (.inr (.inr ⟨s, rfl, rfl, hr, rfl⟩))

/-- A session's step is the core's step of a started core. -/
theorem Session.step_cases {c d : Session} (h : c.step = some d) :
    ∃ s t, c = .started s ∧ Machine.step s = .next t ∧ d = .started t := by
  cases c with
  | waiting m => cases h
  | started s =>
    simp only [Session.step] at h
    split at h
    · next t ht => cases h; exact ⟨s, t, rfl, ht, rfl⟩
    · cases h
    · cases h

end Sys2Proof.Machine
end

