-- ==== Sys2Proof/Laws/PerInstr.lean ====
section
/-! SUPPORT. Statements made instruction by instruction. The family `EncodedForm`: an encoded instruction is the opcode byte of its
mnemonic followed by as many operand bytes as the opcode table gives the mnemonic (`spec/30_encoding.md` R80, R81). -/

namespace Sys2Proof.Laws.EncodedForm

/-- The encoded form of one instruction. -/
def Statement (i : Instr) : Prop :=
  ∃ bs : List Byte, encode i = opc i.mnemonic :: bs ∧ bs.length = operandCount i.mnemonic

theorem ldi (reg imm : Byte) : Statement (.ldi reg imm) := ⟨_, rfl, rfl⟩
theorem prn (reg : Byte) : Statement (.prn reg) := ⟨_, rfl, rfl⟩
theorem mul (ra rb : Byte) : Statement (.mul ra rb) := ⟨_, rfl, rfl⟩
theorem add (ra rb : Byte) : Statement (.add ra rb) := ⟨_, rfl, rfl⟩
theorem push (reg : Byte) : Statement (.push reg) := ⟨_, rfl, rfl⟩
theorem pop (reg : Byte) : Statement (.pop reg) := ⟨_, rfl, rfl⟩
theorem call (reg : Byte) : Statement (.call reg) := ⟨_, rfl, rfl⟩
theorem ret : Statement .ret := ⟨_, rfl, rfl⟩
theorem cmp (ra rb : Byte) : Statement (.cmp ra rb) := ⟨_, rfl, rfl⟩
theorem jeq (reg : Byte) : Statement (.jeq reg) := ⟨_, rfl, rfl⟩
theorem jne (reg : Byte) : Statement (.jne reg) := ⟨_, rfl, rfl⟩
theorem jmp (reg : Byte) : Statement (.jmp reg) := ⟨_, rfl, rfl⟩
theorem hlt : Statement .hlt := ⟨_, rfl, rfl⟩

end Sys2Proof.Laws.EncodedForm
end

