-- ==== Sys2Proof/Laws/Step.lean ====
section
/-! SUPPORT. What a step can do, said once, and what a successful fetch says of the state. -/

namespace Sys2Proof.Machine

/-- A step that answers a next state began RUNNING and either executed the fetched instruction or took the exception of the check
that failed in the fetch. -/
theorem step_cases {s t : State} (h : step s = .next t) :
    s.run = .running ∧ ((∃ i, fetch s = .ok i ∧ exec i s = .next t) ∨ ∃ e, fetch s = .error e ∧ t = s.raise e) := by
  obtain ⟨hr, ho⟩ := whenRunning_next h
  refine ⟨hr, ?_⟩
  split at ho
  · next i hf => exact .inl ⟨i, hf, ho⟩
  · next e hf => exact .inr ⟨e, hf, by simpa [conclude, eq_comm] using ho⟩

theorem step_of_fetch_ok {s : State} {i : Instr} (hr : s.run = .running) (hf : fetch s = .ok i) : step s = exec i s := by
  simp [step, whenRunning_running hr, hf]

theorem step_of_fetch_error {s : State} {e : ErrorKind} (hr : s.run = .running) (hf : fetch s = .error e) :
    step s = .next (s.raise e) := by
  simp [step, whenRunning_running hr, hf, conclude]

/-- Reading cells that all exist answers their values in order. -/
theorem memReadCells_inRange (n : Nat) {a : Nat} (s : State) (h : a + n ≤ 256) :
    memReadCells a n s = .ok ((List.range n).map fun k => s.mem.read (a + k)) := by
  induction n generalizing a with
  | zero => rfl
  | succ n ih =>
    rw [memReadCells, memRead_inRange (by omega), ih (by omega), List.range_succ_eq_map]
    simp [bind, Except.bind, pure, Except.pure, Nat.add_assoc, Nat.add_comm 1]

/-- Reading cells one of which lies past the last cell raises `OutOfRange`. -/
theorem memReadCells_outOfRange (n : Nat) {a : Nat} (s : State) (hn : 0 < n) (h : 256 < a + n) :
    memReadCells a n s = .error .outOfRange := by
  induction n generalizing a with
  | zero => omega
  | succ n ih =>
    rw [memReadCells]
    obtain ⟨ha, hm⟩ | ⟨_, hm⟩ := memRead_cases a s
    · rw [hm, ih (by omega) (by omega)]; rfl
    · rw [hm]; rfl

theorem memReadCells_congr (n : Nat) {a : Nat} {s t : State} (hm : s.mem = t.mem) :
    memReadCells a n s = memReadCells a n t := by
  induction n generalizing a with
  | zero => rfl
  | succ n ih => simp only [memReadCells, memRead, hm, ih]

/-- What is fetched depends on `pc` and memory alone (R88, R101). -/
theorem fetch_congr {s t : State} (hp : s.pc = t.pc) (hm : s.mem = t.mem) : fetch s = fetch t := by
  unfold fetch fetchBytes
  simp only [memRead, hp, hm, memReadCells_congr _ hm]

/-- An instruction is fetched only from a cell of memory. -/
theorem fetch_ok_pc {s : State} {i : Instr} (h : fetch s = .ok i) : s.pc.toNat ≤ 255 := by
  obtain ⟨hp, _⟩ | ⟨_, hm⟩ := memRead_cases s.pc.toNat s
  · exact hp
  · simp [fetch, fetchBytes, hm, bind, Except.bind] at h

/-- The operand bytes of a known opcode assemble to an instruction of that mnemonic with exactly those operands. -/
theorem assemble_exact {mn : Mnemonic} {bs : List Byte} (h : bs.length = operandCount mn) :
    ∃ i : Instr, assemble mn bs = some (i, []) ∧ i.mnemonic = mn ∧ i.operands = bs := by
  match bs, h with
  | [], h => cases mn <;> first | exact ⟨_, rfl, rfl, rfl⟩ | (simp [operandCount] at h)
  | [_], h => cases mn <;> first | exact ⟨_, rfl, rfl, rfl⟩ | (simp [operandCount] at h)
  | [_, _], h => cases mn <;> first | exact ⟨_, rfl, rfl, rfl⟩ | (simp [operandCount] at h)
  | _ :: _ :: _ :: _, h => have := operandCount_le_two mn; simp at h; omega

end Sys2Proof.Machine
end

