-- ==== Sys2Proof/Tests/Slice0.lean ====
section
/-! SUPPORT. The model's own tests. Expected results are the vectors and worked examples of `spec/` (named in each docstring);
the witnesses at the end meet the hypotheses of the statements in `Certificates/Slice0/Obligations.lean`. -/

namespace Sys2Proof.Tests

open Sys2Proof.Machine

/-- The next state of an outcome. -/
def nextOf : StepOutcome → Option State
  | .next t => some t
  | .fault _ => none
  | .refused _ => none

/-- The launch state with `bytes` at `pc`. -/
def bootAt (pc : PcWord) (bytes : List Byte) : State := ({ State.reset with pc := pc } : State).withCode bytes

/-- The launch state with `bytes` from address 0. -/
def boot (bytes : List Byte) : State := bootAt 0 bytes

/-- A state with the byte `v` at address `a`. -/
def poke (s : State) (a : Nat) (v : Byte) : State := s.setMem (s.mem.write a v)

/-- How a step ended: `pc`, run state and cause. -/
def endOf (o : StepOutcome) : Option (PcWord × RunState × Cause) := (nextOf o).map fun t => (t.pc, t.run, t.cause)

/-! ## Well-formedness: an ill-formed term for each check, refused -/

theorem test_wf_accepts : (Instr.ldi 7 255).wellFormed = true := by decide
theorem test_wf_refuses_ldi : (Instr.ldi 8 0).wellFormed = false := by decide
theorem test_wf_refuses_prn : (Instr.prn 255).wellFormed = false := by decide
theorem test_wf_refuses_mul_first : (Instr.mul 8 0).wellFormed = false := by decide
theorem test_wf_refuses_mul_second : (Instr.mul 0 8).wellFormed = false := by decide
theorem test_wf_refuses_add_first : (Instr.add 9 0).wellFormed = false := by decide
theorem test_wf_refuses_add_second : (Instr.add 0 9).wellFormed = false := by decide
theorem test_wf_refuses_push : (Instr.push 8).wellFormed = false := by decide
theorem test_wf_refuses_pop : (Instr.pop 8).wellFormed = false := by decide
theorem test_wf_refuses_call : (Instr.call 8).wellFormed = false := by decide
theorem test_wf_refuses_cmp_first : (Instr.cmp 8 0).wellFormed = false := by decide
theorem test_wf_refuses_cmp_second : (Instr.cmp 0 8).wellFormed = false := by decide
theorem test_wf_refuses_jeq : (Instr.jeq 8).wellFormed = false := by decide
theorem test_wf_refuses_jne : (Instr.jne 8).wellFormed = false := by decide
theorem test_wf_refuses_jmp : (Instr.jmp 8).wellFormed = false := by decide

/-! ## Decoding: every constructor by a word written out from the binary column of R80 -/

theorem test_decode_ldi : decode [0b10000010, 0x00, 0x08] = .ok (.ldi 0 8, []) := by decide
theorem test_decode_prn : decode [0b01000111, 0x02] = .ok (.prn 2, []) := by decide
theorem test_decode_mul : decode [0b10100010, 0x03, 0x04] = .ok (.mul 3 4, []) := by decide
theorem test_decode_add : decode [0b10100000, 0x05, 0x06] = .ok (.add 5 6, []) := by decide
theorem test_decode_push : decode [0b01000101, 0x07] = .ok (.push 7, []) := by decide
theorem test_decode_pop : decode [0b01000110, 0x01] = .ok (.pop 1, []) := by decide
theorem test_decode_call : decode [0b01010000, 0x01] = .ok (.call 1, []) := by decide
theorem test_decode_ret : decode [0b00010001, 0xEE] = .ok (.ret, [0xEE]) := by decide
theorem test_decode_cmp : decode [0b10100111, 0x00, 0x02] = .ok (.cmp 0 2, []) := by decide
theorem test_decode_jeq : decode [0b01010101, 0x03] = .ok (.jeq 3, []) := by decide
theorem test_decode_jne : decode [0b01010110, 0x03] = .ok (.jne 3, []) := by decide
theorem test_decode_jmp : decode [0b01010100, 0x00] = .ok (.jmp 0, []) := by decide
theorem test_decode_hlt : decode [0b00000001] = .ok (.hlt, []) := by decide
/-- R92: a register byte above 7 decodes. -/
theorem test_decode_illegal_register : decode [0x82, 0xFF, 5] = .ok (.ldi 0xFF 5, []) := by decide
/-- R90: zero is not an instruction; nor are the neighbours of ADD and JMP. -/
theorem test_decode_unknown : decode [0x00, 1, 1] = .error (.unknownOpcode 0x00) ∧ decode [0xA1] = .error (.unknownOpcode 0xA1) ∧
    decode [0x57, 0] = .error (.unknownOpcode 0x57) := by decide
theorem test_decode_missing : decode [] = .error .noOpcode ∧ decode [0x82, 0] = .error (.operandsMissing .LDI) := by decide
/-- R89: bits 7:6 of each of the 13 bytes are its operand count, a check on the values. -/
theorem test_opc_count_bits : mnemonics.all (fun mn => (opc mn).toNat / 64 == operandCount mn) = true := by decide
/-- The table's numbering: the first byte in bits 7..0, the second in 15..8; bits above `nbits` are 0. -/
theorem test_table_word : decodeTableWord 24 0x080382 = some (.ldi 3 8) ∧ decodeTableWord 8 0x080382 = some (.ldi 0 0) := by decide
/-- A table word placed at reset is the first instruction to run. -/
theorem test_fetch_word : endOf (step (State.reset.withFetchWord 8 0x01)) = some (0, .halted, .hlt) ∧
    (nextOf (step (State.reset.withFetchWord 24 0x080382))).map (·.reg 3) = some 8 := by decide

/-! ## Fetch and decode (vectors V-FD of `spec/95_test_vectors.md`) -/

/-- V-FD-1 -/
theorem test_step_zero_is_unknown : endOf (step State.reset) = some (0, .halted, .unknownOpcode) := by decide
/-- V-FD-5 -/
theorem test_step_operand_past_the_end : endOf (step (bootAt 255 [0x47])) = some (255, .halted, .outOfRange) := by decide
/-- V-FD-8, V-FD-9 -/
theorem test_step_runs_off_the_end : endOf (step (bootAt 253 [0x82, 1, 7])) = some (256, .running, .none) ∧
    endOf (step (bootAt 256 [])) = some (256, .halted, .outOfRange) := by decide
/-- V-FD-10 -/
theorem test_step_unknown_before_operands : endOf (step (bootAt 255 [0x00])) = some (255, .halted, .unknownOpcode) := by decide
/-- V-HLT-2 -/
theorem test_step_halted : step { State.reset with run := .halted, cause := .hlt } = .fault .coreHalted := by rfl

/-! ## One step of each instruction -/

/-- V-LDI-4 -/
theorem test_ldi_sets_sp : (nextOf (step (boot [0x82, 7, 0x80]))).map (fun t => (t.sp, t.pc)) = some (0x80, 3) := by decide
/-- V-LDI-6 -/
theorem test_ldi_index_not_masked : endOf (step (boot [0x82, 0xFF, 5])) = some (0, .halted, .outOfRange) := by decide
/-- V-PRN-1 -/
theorem test_prn : (nextOf (step ((boot [0x47, 2]).setReg 2 200))).map (fun t => (t.out, t.pc)) = some ([200], 2) := by decide
/-- V-PRN-4 -/
theorem test_prn_bad_register : (nextOf (step (boot [0x47, 8]))).map (fun t => (t.out, t.cause)) = some ([], .outOfRange) := by decide
/-- V-ADD-2 -/
theorem test_add_wraps : (nextOf (step (((boot [0xA0, 0, 1]).setReg 0 200).setReg 1 100))).map (fun t => (t.reg 0, t.reg 1, t.pc, t.out))
    = some (44, 100, 3, []) := by decide
/-- V-ADD-4 -/
theorem test_add_same_register : (nextOf (step ((boot [0xA0, 2, 2]).setReg 2 0x90))).map (·.reg 2) = some 0x20 := by decide
/-- V-MUL-5 -/
theorem test_mul_wraps : (nextOf (step (((boot [0xA2, 0, 1]).setReg 0 200).setReg 1 100))).map (fun t => (t.out, t.reg 0, t.pc))
    = some ([32], 200, 3) := by decide
/-- V-MUL-7 -/
theorem test_mul_bad_register : (nextOf (step (boot [0xA2, 8, 0]))).map (fun t => (t.out, t.cause)) = some ([], .outOfRange) := by decide
/-- V-STK-3 -/
theorem test_push_over_itself : (nextOf (step (((boot [0x45, 1]).setReg 1 0xAB).setReg 7 1))).map (fun t => (t.sp, t.mem.read 0, t.pc))
    = some (0, 0xAB, 2) := by decide
/-- V-STK-8 -/
theorem test_push_sp : (nextOf (step ((boot [0x45, 7]).setReg 7 0x80))).map (fun t => (t.sp, t.mem.read 0x7F)) = some (0x7F, 0x7F) := by
  decide
/-- V-STK-6 -/
theorem test_pop_own_opcode : (nextOf (step ((boot [0x46, 2]).setReg 7 0))).map (fun t => (t.reg 2, t.sp, t.pc)) = some (0x46, 1, 2) := by
  decide
/-- V-STK-9, V-STK-10 -/
theorem test_pop_sp : (nextOf (step (poke ((boot [0x46, 7]).setReg 7 0xFE) 0xFE 0x10))).map (·.sp) = some 0x11 ∧
    (nextOf (step (poke ((boot [0x46, 7]).setReg 7 0xFE) 0xFE 0xFF))).map (fun t => (t.sp, t.cause)) = some (0xFE, .stackUnderflow) := by
  decide
/-- V-CALL-4 -/
theorem test_call : (nextOf (step ((bootAt 253 [0x50, 0]).setReg 0 0x10))).map (fun t => (t.sp, t.mem.read 0xFE, t.pc))
    = some (0xFE, 0xFF, 0x10) := by decide
/-- V-CALL-5, V-CALL-3 -/
theorem test_call_corners : (nextOf (step ((boot [0x50, 7]).setReg 7 0x80))).map (fun t => (t.sp, t.mem.read 0x7F, t.pc))
      = some (0x7F, 2, 0x7F) ∧
    (nextOf (step (bootAt 254 [0x50, 0]))).map (fun t => (t.sp, t.pc, t.cause)) = some (0xFF, 254, .outOfRange) := by decide
/-- V-RET-1 -/
theorem test_ret : (nextOf (step (poke ((bootAt 0x22 [0x11]).setReg 7 0xFE) 0xFE 8))).map (fun t => (t.pc, t.sp, t.mem.read 0xFE))
    = some (8, 0xFF, 8) := by decide
/-- V-RET-2 -/
theorem test_ret_underflow : endOf (step (boot [0x11])) = some (0, .halted, .stackUnderflow) := by decide
/-- V-CMP-4, V-CMP-5 -/
theorem test_cmp_unsigned :
    (nextOf (step (((boot [0xA7, 0, 1]).setReg 0 0x80).setReg 1 0x7F))).map (fun t => (t.fl, t.pc)) = some (.greater, 3) ∧
    (nextOf (step (((boot [0xA7, 0, 1]).setReg 0 0).setReg 1 0xFF))).map (·.fl) = some .less := by decide
/-- V-CMP-6, V-CMP-7 -/
theorem test_cmp_overwrites : (nextOf (step (((boot [0xA7, 4, 4]).setReg 4 0xC3).setFl .less))).map (·.fl) = some .equal ∧
    (nextOf (step ((boot [0xA7, 0, 8]).setFl .greater))).map (fun t => (t.fl, t.cause)) = some (.greater, .outOfRange) := by decide
/-- V-BR-1, V-BR-4 -/
theorem test_jeq : (nextOf (step (((boot [0x55, 3]).setReg 3 0x10).setFl .equal))).map (·.pc) = some 0x10 ∧
    (nextOf (step ((boot [0x55, 3]).setReg 3 0x10))).map (·.pc) = some 2 := by decide
/-- V-BR-9, V-BR-10, V-BR-16 -/
theorem test_jeq_corners : endOf (step (boot [0x55, 9])) = some (2, .running, .none) ∧
    endOf (step ((boot [0x55, 9]).setFl .equal)) = some (0, .halted, .outOfRange) ∧
    endOf (step (bootAt 255 [0x55])) = some (255, .halted, .outOfRange) := by decide
/-- V-BR-5, V-BR-8 -/
theorem test_jne : (nextOf (step (((boot [0x56, 3]).setReg 3 0x10).setFl .equal))).map (·.pc) = some 2 ∧
    (nextOf (step ((boot [0x56, 3]).setReg 3 0x10))).map (·.pc) = some 0x10 := by decide
/-- V-BR-11, V-BR-12 -/
theorem test_jne_corners : endOf (step ((boot [0x56, 9]).setFl .equal)) = some (2, .running, .none) ∧
    endOf (step (boot [0x56, 9])) = some (0, .halted, .outOfRange) := by decide
/-- V-BR-13 -/
theorem test_jmp : (nextOf (step (((boot [0x54, 0]).setReg 0 0xFE).setFl .less))).map (fun t => (t.pc, t.fl)) = some (0xFE, .less) := by
  decide
/-- V-BR-15 -/
theorem test_jmp_bad_register : endOf (step (boot [0x54, 8])) = some (0, .halted, .outOfRange) := by decide
/-- V-HLT-1, V-FD-4 -/
theorem test_hlt : endOf (step (bootAt 9 [0x01])) = some (9, .halted, .hlt) ∧ endOf (step (bootAt 255 [0x01])) = some (255, .halted, .hlt) := by
  decide
/-- R209: HLT is the normal end; an error is not. -/
theorem test_endings : (nextOf (step (boot [0x01]))).map endedNormally = some true ∧
    (nextOf (step (boot [0xFF]))).map endedInError = some true := by decide

/-! ## Launch and ports -/

/-- R224: the image from address 0. -/
theorem test_launch : ((launch [0x82, 0x00, 0x08]).toOption.map fun s => (s.mem.read 0, s.mem.read 2, s.mem.read 3, s.pc)) = some (0x82, 8, 0, 0) := by
  decide
/-- R192, R224: the write of byte 256 of an image is refused with `OutOfRange`. -/
theorem test_load_past_the_end : loadCell 256 1 [] = .error .outOfRange ∧ loadCell 255 1 [] = .ok [(255, 1)] := by decide
/-- R230: no write to memory after `start`; before it a cell may be written twice. -/
theorem test_load_port : hostMove (.load 5 1) (.started State.reset) = .noMove ∧
    hostMoves [.rst, .load 5 1, .load 5 2, .start] (.started (boot [0x01])) = .done (.started (launchState [(5, 2)])) := by decide
/-- R222, R230: no step before `start`, no restart without reset. -/
theorem test_start : (Session.waiting []).step = none ∧ hostMove .start (.started State.reset) = .noMove ∧
    hostMove .start (.started (State.reset.halt .hlt)) = .done (.started (State.reset.halt .hlt)) := by decide
/-- R228: after the halt the host reads cause 1 (HLT). -/
theorem test_read_after_halt : ((Session.started (State.reset.halt .hlt)).read.map (·.1)) = some 1 ∧
    (Session.started State.reset).read = none := by decide
/-- R31: the one-hot encoding `L G E`. -/
theorem test_fl_bits : [Flag.unset, .equal, .greater, .less].map flBits = [0b000, 0b001, 0b010, 0b100] := by decide
/-- R109: the pulse of one PRN. -/
theorem test_out_pulse : (nextOf (step ((boot [0x47, 2]).setReg 2 200))).map (outPulses (boot [])) = some [200] := by decide

/-! ## Witnesses: a state and operands that meet the hypotheses of each statement, clause by clause -/

/-- Running and decoding to an instruction, `pc` at both ends of memory (`StepKeepsInvariant`, `ErrorsArePrecise`,
`MemoryIsWrittenOnlyByPushAndCall`, `OutputGrowsOnlyByPrnAndMul`, `FlagMovesOnlyByCmp`, `RunningCoreIsNeverStuck`). -/
theorem witness_step_from_invariant :
    (boot [0x45, 0]).Inv ∧ (boot [0x45, 0]).run = .running ∧ (nextOf (step (boot [0x45, 0]))).isSome = true ∧
    (bootAt 255 [0x01]).Inv ∧ (nextOf (step (bootAt 255 [0x01]))).map (·.run) = some .halted ∧
    (nextOf (step (boot [0x47, 0]))).map (·.run) = some .running := by decide
theorem witness_flag_moves : fetch ((boot [0xA7, 0, 1]).setFl .less) = .ok (.cmp 0 1) ∧ ((boot [0xA7, 0, 1]).setFl .less).fl ≠ .unset ∧
    (nextOf (step ((boot [0xA7, 0, 1]).setFl .less))).isSome = true ∧ fetch (boot [0x01]) ≠ .ok (.cmp 0 1) := by decide
theorem witness_launch : ([] : List Byte).length ≤ 256 ∧ (List.replicate 256 (1 : Byte)).length ≤ 256 ∧
    256 < (List.replicate 257 (1 : Byte)).length :=
  ⟨Nat.zero_le _, Nat.le_of_eq List.length_replicate, by rw [List.length_replicate]; decide⟩
/-- `LaunchIsTheHostsMoves`: an image that launches and one that does not. -/
theorem witness_launch_answers : launch [0x01] = .ok (launchState [(0, 1)]) ∧
    launch (List.replicate 257 0) = .error .outOfRange := by decide
/-- `HostMovesFollowThePhases`, `HostAndCoreKeepInvariant`: the last cell and the address after it, a core in each phase. -/
theorem witness_host_moves : (255 : Nat) ≤ 255 ∧ 255 < (256 : Nat) ∧ State.reset.run = .running ∧ (State.reset.halt .hlt).run = .halted ∧
    (Session.waiting []).state.Inv ∧ hostMove (.load 255 1) (.waiting []) = .done (.waiting [(255, 1)]) ∧
    (Session.started (boot [0x01])).state.Inv ∧ (Session.started (boot [0x01])).step.isSome = true := by decide
theorem witness_canonical_memories : (boot [1, 0, 2]).mem.wf = true ∧ (poke (boot [1, 5, 2]) 1 0).mem.wf = true ∧
    (boot [1, 0, 2]).mem = (poke (boot [1, 5, 2]) 1 0).mem := by decide
theorem witness_decoded_bytes : decode [0x82, 7, 255, 9] = .ok (.ldi 7 255, [9]) := by decide
theorem witness_unknown_opcode : (boot [0x00]).run = .running ∧ (boot [0x00]).pc.toNat ≤ 255 ∧
    unknownByte ((boot [0x00]).mem.read (boot [0x00]).pc.toNat) = true ∧ unknownByte 0xFF = true ∧ unknownByte 0x82 = false := by decide
theorem witness_fetch_clauses :
    (bootAt 256 []).run = .running ∧ 255 < (bootAt 256 []).pc.toNat ∧
    lookupOpcode ((bootAt 254 [0x82, 0]).mem.read 254) = some .LDI ∧ 255 < (bootAt 254 [0x82, 0]).pc.toNat + operandCount .LDI ∧
    lookupOpcode ((bootAt 253 [0x82, 1, 7]).mem.read 253) = some .LDI ∧ (bootAt 253 [0x82, 1, 7]).pc.toNat + operandCount .LDI ≤ 255 := by
  decide
theorem witness_decoded_step : (bootAt 253 [0x82, 1, 7]).run = .running ∧ (bootAt 253 [0x82, 1, 7]).pc.toNat + 3 ≤ 256 ∧
    decode ((List.range 3).map fun k => (bootAt 253 [0x82, 1, 7]).mem.read ((bootAt 253 [0x82, 1, 7]).pc.toNat + k))
      = .ok (.ldi 1 7, []) := by decide
theorem witness_halted : ({ State.reset with run := .halted, cause := .hlt } : State).run = .halted := by decide
theorem witness_advance : (bootAt 255 []).pc.toNat ≤ 255 ∧ (2 : Nat) ≤ 2 := by decide
/-- `FetchedAs`, both clauses at the boundary, for a format of each length. -/
theorem witness_fetched_as :
    (bootAt 254 [0x82, 0]).mem.read 254 = 0x82 ∧ (bootAt 254 [0x82, 0]).pc.toNat + 2 > 255 ∧
    (bootAt 253 [0x82, 0, 0]).mem.read 253 = 0x82 ∧ (bootAt 253 [0x82, 0, 0]).pc.toNat + 2 ≤ 255 ∧
    (bootAt 255 [0x47]).mem.read 255 = 0x47 ∧ (bootAt 255 [0x47]).pc.toNat + 1 > 255 ∧
    (bootAt 255 [0x01]).mem.read 255 = 0x01 ∧ (bootAt 255 [0x01]).pc.toNat + 0 ≤ 255 ∧ (bootAt 255 [0x01]).run = .running := by decide
/-- Register operand bytes: the last legal and the first illegal. -/
theorem witness_register_bytes : (7 : Byte).toNat = (7 : Fin 8).val ∧ (0 : Byte).toNat = (0 : Fin 8).val ∧ 7 < (8 : Byte).toNat := by decide
/-- PUSH and CALL: the stack pointer at 0 and at 1, the return address at 255 and at 256. -/
theorem witness_push_call : (State.reset.setReg 7 0).reg 7 = 0 ∧ (State.reset.setReg 7 1).reg 7 ≠ 0 ∧
    (bootAt 253 []).pc.toNat + 2 ≤ 255 ∧ (bootAt 253 []).reg 7 ≠ 0 ∧ 255 < (bootAt 254 []).pc.toNat + 2 := by decide
/-- POP and RET: the stack pointer at 0xFF and at 0xFE, the popped value at 0xFF and below. -/
theorem witness_pop_ret : State.reset.reg 7 = 0xFF ∧ (State.reset.setReg 7 0xFE).reg 7 ≠ 0xFF ∧
    (State.reset.setReg 7 0xFE).mem.read ((State.reset.setReg 7 0xFE).reg 7).toNat ≠ 0xFF ∧
    (poke (State.reset.setReg 7 0xFE) 0xFE 0xFF).mem.read ((poke (State.reset.setReg 7 0xFE) 0xFE 0xFF).reg 7).toNat = 0xFF ∧
    (6 : Byte).toNat = (6 : Fin 8).val ∧ (6 : Fin 8) ≠ 7 ∧ (7 : Byte).toNat = 7 := by decide
theorem witness_branch_flags : (State.reset.setFl .equal).fl = .equal ∧ State.reset.fl ≠ .equal := by decide
theorem witness_illegal_register : (Instr.jmp 8).wellFormed = false ∧ (Instr.jeq 8).wellFormed = false ∧
    (State.reset.setFl .equal).fl = .equal ∧ (Instr.jne 8).wellFormed = false ∧ State.reset.fl ≠ .equal := by decide
/-- An instruction of each frame's group that answers a next state, and one that takes the exception. -/
theorem witness_frames :
    (nextOf (exec (.ldi 7 1) State.reset)).isSome = true ∧ (nextOf (exec (.add 8 0) State.reset)).isSome = true ∧
    (nextOf (exec (.prn 0) State.reset)).isSome = true ∧ (nextOf (exec (.mul 0 8) State.reset)).isSome = true ∧
    (nextOf (exec (.push 0) State.reset)).isSome = true ∧ spDec State.reset = .ok 0xFE ∧
    (nextOf (exec (.call 0) (State.reset.setReg 7 0))).isSome = true ∧ spDec (State.reset.setReg 7 0) = .error .outOfRange ∧
    (nextOf (exec (.pop 1) (State.reset.setReg 7 0))).isSome = true ∧ (nextOf (exec .ret State.reset)).isSome = true ∧
    (nextOf (exec (.cmp 0 1) State.reset)).isSome = true ∧ (nextOf (exec (.jeq 9) State.reset)).isSome = true ∧
    (nextOf (exec (.jne 9) State.reset)).isSome = true ∧ (nextOf (exec (.jmp 7) State.reset)).isSome = true ∧
    (nextOf (exec .hlt State.reset)).isSome = true := by decide
theorem witness_flag_twins : FlagTwins ((boot [0x55, 1]).setFl .less) ((boot [0x55, 1]).setFl .greater) ∧
    FlagTwins ((boot [0x56, 1]).setFl .unset) ((boot [0x56, 1]).setFl .less) ∧ ((boot [0x55, 1]).setFl .less).run = .running := by
  refine ⟨⟨rfl, by decide⟩, ⟨rfl, by decide⟩, rfl⟩
/-- Program P7 after its second step: PUSH stores HLT's byte at the address after itself. -/
theorem witness_store_fetched :
    (nextOf (exec (.push 0) ((bootAt 6 [0x45, 0]).setReg 7 9))).map (fun t => (t.pc.toNat, (fetchBytes t).toOption)) = some (8, some [0]) ∧
    ((bootAt 6 [0x45, 0]).setReg 7 9).reg 7 ≠ 0 ∧ (((bootAt 6 [0x45, 0]).setReg 7 9).reg 7).toNat - 1 = 8 := by decide
theorem witness_store_fetched_by_call :
    (nextOf (exec (.call 7) ((boot [0x50, 7]).setReg 7 0x80))).map (fun t => (t.pc.toNat, (fetchBytes t).toOption)) = some (0x7F, some [2]) ∧
    ((boot [0x50, 7]).setReg 7 0x80).pc.toNat + 2 ≤ 255 := by decide
theorem witness_ldi_prn : (bootAt 251 [0x82, 7, 0xFF, 0x47, 7]).run = .running ∧ (bootAt 251 [0x82, 7, 0xFF, 0x47, 7]).pc.toNat ≤ 251 ∧
    (List.range 5).map (fun k => (bootAt 251 [0x82, 7, 0xFF, 0x47, 7]).mem.read (251 + k)) = [0x82, 7, 0xFF, 0x47, 7] := by decide
theorem witness_push_pop : ((boot [0x45, 3, 0x46, 3]).setReg 7 0x80).run = .running ∧ ((boot [0x45, 3, 0x46, 3]).setReg 7 0x80).reg 7 ≠ 0 ∧
    (List.range 4).map (fun k => ((boot [0x45, 3, 0x46, 3]).setReg 7 0x80).mem.read k) = [0x45, 3, 0x46, 3] ∧
    (∀ k : Nat, k < 4 → ((boot [0x45, 3, 0x46, 3]).setReg 7 0x80).pc.toNat + k
      ≠ (((boot [0x45, 3, 0x46, 3]).setReg 7 0x80).reg 7).toNat - 1) := by decide
/-- The callee's state: that of the CALL moved to a RET elsewhere. -/
theorem witness_call_ret : (bootAt 253 []).reg 7 ≠ 0 ∧ (bootAt 253 []).pc.toNat ≤ 253 ∧ (7 : Byte).toNat ≤ 7 ∧
    (nextOf (exec (.call 0) (bootAt 253 []))).map (fun t => (t.reg 7, t.mem.read (t.reg 7).toNat)) = some (0xFE, 0xFF) := by decide
theorem witness_stack : (∀ r ∈ ([0, 6, 0] : List Byte), r.toNat ≤ 6) ∧ ([0, 6, 0] : List Byte).length ≤ ((State.reset.setReg 7 3).reg 7).toNat := by
  decide

end Sys2Proof.Tests
end

/-! ## What the execution of an instruction can do

`Effect s i t` lists the ways the rule of `i` completes from `s`, `Raises s i e` the checks of it that fail
(R25, R150 to R154, R160, R161, R172 to R174). `exec_of_effect`, `exec_of_raises` and `exec_next` tie both to `exec`:
they are all that `exec` answers. -/

namespace Sys2Proof.Machine

/-- The state with `v` stored below the stack pointer, which has moved down to it (R150, R152, R160). -/
def State.pushed (s : State) (v : Byte) : State :=
  (s.setSp (s.reg 7 - 1)).setMem (s.mem.write (s.reg 7 - 1).toNat v)

@[simp] theorem State.pushed_x (s : State) (v : Byte) : (s.pushed v).x = s.x.set 7 (s.reg 7 - 1) := rfl
@[simp] theorem State.pushed_pc (s : State) (v : Byte) : (s.pushed v).pc = s.pc := rfl
@[simp] theorem State.pushed_fl (s : State) (v : Byte) : (s.pushed v).fl = s.fl := rfl
@[simp] theorem State.pushed_run (s : State) (v : Byte) : (s.pushed v).run = s.run := rfl
@[simp] theorem State.pushed_cause (s : State) (v : Byte) : (s.pushed v).cause = s.cause := rfl
@[simp] theorem State.pushed_mem (s : State) (v : Byte) :
    (s.pushed v).mem = s.mem.write (s.reg 7 - 1).toNat v := rfl
@[simp] theorem State.pushed_out (s : State) (v : Byte) : (s.pushed v).out = s.out := rfl
@[simp] theorem State.reg_pushed (s : State) (v : Byte) (q : Fin 8) :
    (s.pushed v).reg q = if q = 7 then s.reg 7 - 1 else s.reg q := State.reg_setSp s q (s.reg 7 - 1)

/-- The state with the cell at the stack pointer copied to register `r`, the pointer not yet moved (R153). -/
def State.popped (s : State) (r : Fin 8) : State := s.setReg r (s.mem.read (s.reg 7).toNat)

theorem State.setReg_top (s : State) (r : Fin 8) : s.setReg r (s.mem.read (s.reg 7).toNat) = s.popped r := rfl

@[simp] theorem State.popped_x (s : State) (r : Fin 8) :
    (s.popped r).x = s.x.set r (s.mem.read (s.reg 7).toNat) := rfl
@[simp] theorem State.popped_pc (s : State) (r : Fin 8) : (s.popped r).pc = s.pc := rfl
@[simp] theorem State.popped_fl (s : State) (r : Fin 8) : (s.popped r).fl = s.fl := rfl
@[simp] theorem State.popped_run (s : State) (r : Fin 8) : (s.popped r).run = s.run := rfl
@[simp] theorem State.popped_cause (s : State) (r : Fin 8) : (s.popped r).cause = s.cause := rfl
@[simp] theorem State.popped_mem (s : State) (r : Fin 8) : (s.popped r).mem = s.mem := rfl
@[simp] theorem State.popped_out (s : State) (r : Fin 8) : (s.popped r).out = s.out := rfl
@[simp] theorem State.reg_popped (s : State) (r q : Fin 8) :
    (s.popped r).reg q = if q = r then s.mem.read (s.reg 7).toNat else s.reg q := State.reg_setReg s r q _

/-- The rule of an instruction completes: every check passes, and the step ends in the given state. -/
inductive Effect (s : State) : Instr → State → Prop where
  | ldi {reg imm : Byte} {r : Fin 8} (hr : reg.toNat = r.val) :
      Effect s (.ldi reg imm) ((s.setReg r imm).loadSeq 2)
  | prn {reg : Byte} {r : Fin 8} (hr : reg.toNat = r.val) :
      Effect s (.prn reg) ((s.emit (s.reg r)).loadSeq 1)
  | mul {ra rb : Byte} {i j : Fin 8} (hi : ra.toNat = i.val) (hj : rb.toNat = j.val) :
      Effect s (.mul ra rb) ((s.emit (BitVec.ofNat 8 ((s.reg i).toNat * (s.reg j).toNat))).loadSeq 2)
  | add {ra rb : Byte} {i j : Fin 8} (hi : ra.toNat = i.val) (hj : rb.toNat = j.val) :
      Effect s (.add ra rb) ((s.setReg i (BitVec.ofNat 8 ((s.reg i).toNat + (s.reg j).toNat))).loadSeq 2)
  | push {reg : Byte} {r : Fin 8} (hr : reg.toNat = r.val) (hsp : s.reg 7 ≠ 0) :
      Effect s (.push reg) ((s.pushed (if r = 7 then s.reg 7 - 1 else s.reg r)).loadSeq 1)
  | pop {reg : Byte} {r : Fin 8} (hr : reg.toNat = r.val) (hsp : s.reg 7 ≠ 0xFF) (htop : (s.popped r).reg 7 ≠ 0xFF) :
      Effect s (.pop reg) (((s.popped r).setSp ((s.popped r).reg 7 + 1)).loadSeq 1)
  | call {reg : Byte} {r : Fin 8} (hr : reg.toNat = r.val) (hsp : s.reg 7 ≠ 0) (hpc : s.pc.toNat + 2 ≤ 255) :
      Effect s (.call reg)
        ((s.pushed (BitVec.ofNat 8 (s.pc.toNat + 2))).loadTarget (if r = 7 then s.reg 7 - 1 else s.reg r))
  | ret (hsp : s.reg 7 ≠ 0xFF) :
      Effect s .ret ((s.loadTarget (s.mem.read (s.reg 7).toNat)).setSp (s.reg 7 + 1))
  | cmp {ra rb : Byte} {i j : Fin 8} (hi : ra.toNat = i.val) (hj : rb.toNat = j.val) :
      Effect s (.cmp ra rb) ((s.setFl (comparator (s.reg i) (s.reg j))).loadSeq 2)
  | jeqTaken {reg : Byte} {r : Fin 8} (hfl : s.fl = .equal) (hr : reg.toNat = r.val) :
      Effect s (.jeq reg) (s.loadTarget (s.reg r))
  | jeqUntaken {reg : Byte} (hfl : s.fl ≠ .equal) : Effect s (.jeq reg) (s.loadSeq 1)
  | jneTaken {reg : Byte} {r : Fin 8} (hfl : s.fl ≠ .equal) (hr : reg.toNat = r.val) :
      Effect s (.jne reg) (s.loadTarget (s.reg r))
  | jneUntaken {reg : Byte} (hfl : s.fl = .equal) : Effect s (.jne reg) (s.loadSeq 1)
  | jmp {reg : Byte} {r : Fin 8} (hr : reg.toNat = r.val) : Effect s (.jmp reg) (s.loadTarget (s.reg r))
  | hlt : Effect s .hlt (s.halt .hlt)

/-- A check of the rule of an instruction raises the given error. -/
inductive Raises (s : State) : Instr → ErrorKind → Prop where
  | ldi {reg imm : Byte} (hr : 7 < reg.toNat) : Raises s (.ldi reg imm) .outOfRange
  | prn {reg : Byte} (hr : 7 < reg.toNat) : Raises s (.prn reg) .outOfRange
  | mul {ra rb : Byte} (hr : 7 < ra.toNat ∨ 7 < rb.toNat) : Raises s (.mul ra rb) .outOfRange
  | add {ra rb : Byte} (hr : 7 < ra.toNat ∨ 7 < rb.toNat) : Raises s (.add ra rb) .outOfRange
  | push {reg : Byte} (hc : 7 < reg.toNat ∨ s.reg 7 = 0) : Raises s (.push reg) .outOfRange
  | popIndex {reg : Byte} (hr : 7 < reg.toNat) : Raises s (.pop reg) .outOfRange
  | popEmpty {reg : Byte} {r : Fin 8} (hr : reg.toNat = r.val) (hsp : s.reg 7 = 0xFF) :
      Raises s (.pop reg) .stackUnderflow
  | popTop {reg : Byte} {r : Fin 8} (hr : reg.toNat = r.val) (hsp : s.reg 7 ≠ 0xFF) (htop : (s.popped r).reg 7 = 0xFF) :
      Raises s (.pop reg) .stackUnderflow
  | call {reg : Byte} (hc : 7 < reg.toNat ∨ s.reg 7 = 0 ∨ 255 < s.pc.toNat + 2) : Raises s (.call reg) .outOfRange
  | ret (hsp : s.reg 7 = 0xFF) : Raises s .ret .stackUnderflow
  | cmp {ra rb : Byte} (hr : 7 < ra.toNat ∨ 7 < rb.toNat) : Raises s (.cmp ra rb) .outOfRange
  | jeq {reg : Byte} (hfl : s.fl = .equal) (hr : 7 < reg.toNat) : Raises s (.jeq reg) .outOfRange
  | jne {reg : Byte} (hfl : s.fl ≠ .equal) (hr : 7 < reg.toNat) : Raises s (.jne reg) .outOfRange
  | jmp {reg : Byte} (hr : 7 < reg.toNat) : Raises s (.jmp reg) .outOfRange

/-! ### Both relations hold of `exec` -/

@[simp] theorem conclude_ok (s t : State) : conclude s (.ok t) = .next t := rfl

@[simp] theorem conclude_error (s : State) (e : ErrorKind) : conclude s (.error e) = .next (s.raise e) := rfl

@[simp] theorem ok_bind {α β : Type} (a : α) (k : α → Except ErrorKind β) : (Except.ok a >>= k) = k a := rfl

@[simp] theorem error_bind {α β : Type} (e : ErrorKind) (k : α → Except ErrorKind β) :
    ((Except.error e : Except ErrorKind α) >>= k) = .error e := rfl

@[simp] theorem pure_eq_ok {α : Type} (a : α) : (pure a : Except ErrorKind α) = .ok a := rfl

theorem takesJeq_iff (f : Flag) : takesJeq f = true ↔ f = .equal := by simp [takesJeq]

theorem takesJne_iff (f : Flag) : takesJne f = true ↔ f ≠ .equal := by simp [takesJne]

theorem jumpTo_legal {reg : Byte} {r : Fin 8} (hr : reg.toNat = r.val) (s : State) :
    jumpTo reg s = .ok (s.loadTarget (s.reg r)) := by
  simp [jumpTo, regIndex_legal hr]

theorem jumpTo_illegal {reg : Byte} (hr : 7 < reg.toNat) (s : State) : jumpTo reg s = .error .outOfRange := by
  simp [jumpTo, regIndex_illegal hr]

/-- Accessing two registers, one of whose bytes is illegal, raises `OutOfRange` whatever would follow. -/
theorem regIndex_pair_illegal {ra rb : Byte} (hr : 7 < ra.toNat ∨ 7 < rb.toNat) {α : Type}
    (k : Fin 8 → Fin 8 → Except ErrorKind α) :
    (do let i ← regIndex ra; let j ← regIndex rb; k i j) = .error .outOfRange := by
  obtain ⟨i, _, hi⟩ | ⟨_, ha⟩ := regIndex_cases ra
  · simp [hi, regIndex_illegal (show 7 < rb.toNat by omega)]
  · simp [ha]

theorem exec_of_effect {s t : State} {i : Instr} (h : Effect s i t) : exec i s = .next t := by
  cases h with
  | ldi hr => simp [exec, execLdi, regIndex_legal hr]
  | prn hr => simp [exec, execPrn, regIndex_legal hr]
  | mul hi hj => simp [exec, execMul, regIndex_legal hi, regIndex_legal hj]
  | add hi hj => simp [exec, execAdd, regIndex_legal hi, regIndex_legal hj]
  | push hr hsp => simp [exec, execPush, regIndex_legal hr, spDec_ok hsp, State.pushed]
  | pop hr hsp htop =>
    simp [exec, execPop, regIndex_legal hr, spInc_ok hsp, State.sp_eq, State.setReg_top, spInc_ok htop]
  | call hr hsp hpc => simp [exec, execCall, regIndex_legal hr, spDec_ok hsp, returnAddress_ok hpc, State.pushed]
  | ret hsp => simp [exec, execRet, spInc_ok hsp, State.sp_eq]
  | cmp hi hj => simp [exec, execCmp, regIndex_legal hi, regIndex_legal hj]
  | jeqTaken hfl hr => simp [exec, execJeq, takesJeq_iff, hfl, jumpTo_legal hr]
  | jeqUntaken hfl => simp [exec, execJeq, takesJeq_iff, hfl]
  | jneTaken hfl hr => simp [exec, execJne, takesJne_iff, hfl, jumpTo_legal hr]
  | jneUntaken hfl => simp [exec, execJne, takesJne_iff, hfl]
  | jmp hr => simp [exec, execJmp, jumpTo_legal hr]
  | hlt => rfl

theorem exec_of_raises {s : State} {i : Instr} {e : ErrorKind} (h : Raises s i e) : exec i s = .next (s.raise e) := by
  cases h with
  | ldi hr => simp [exec, execLdi, regIndex_illegal hr]
  | prn hr => simp [exec, execPrn, regIndex_illegal hr]
  | mul hr => simp only [exec, execMul, regIndex_pair_illegal hr, conclude_error]
  | add hr => simp only [exec, execAdd, regIndex_pair_illegal hr, conclude_error]
  | @push reg hc =>
    obtain ⟨r, hb, hr⟩ | ⟨_, hr⟩ := regIndex_cases reg
    · have hsp : s.reg 7 = 0 := hc.resolve_left (by omega)
      simp [exec, execPush, hr, spDec_error hsp]
    · simp [exec, execPush, hr]
  | popIndex hr => simp [exec, execPop, regIndex_illegal hr]
  | popEmpty hr hsp => simp [exec, execPop, regIndex_legal hr, spInc_error hsp]
  | popTop hr hsp htop =>
    simp [exec, execPop, regIndex_legal hr, spInc_ok hsp, State.sp_eq, State.setReg_top, spInc_error htop]
  | @call reg hc =>
    obtain ⟨r, hb, hr⟩ | ⟨_, hr⟩ := regIndex_cases reg
    · obtain ⟨hsp, hd⟩ | ⟨_, hd⟩ := spDec_cases s
      · have hpc : 255 < s.pc.toNat + 2 := (hc.resolve_left (by omega)).resolve_left hsp
        simp [exec, execCall, hr, hd, returnAddress_error hpc]
      · simp [exec, execCall, hr, hd]
    · simp [exec, execCall, hr]
  | ret hsp => simp [exec, execRet, spInc_error hsp]
  | cmp hr => simp only [exec, execCmp, regIndex_pair_illegal hr, conclude_error]
  | jeq hfl hr => simp [exec, execJeq, takesJeq_iff, hfl, jumpTo_illegal hr]
  | jne hfl hr => simp [exec, execJne, takesJne_iff, hfl, jumpTo_illegal hr]
  | jmp hr => simp [exec, execJmp, jumpTo_illegal hr]

/-! ### `exec` answers nothing else -/

/-- A register byte is one of the legal values 0..7 or lies above them (R83, R87). -/
theorem legal_or_illegal (b : Byte) : (∃ r : Fin 8, b.toNat = r.val) ∨ 7 < b.toNat :=
  (regIndex_cases b).imp (fun ⟨r, hr, _⟩ => ⟨r, hr⟩) And.left

theorem legal_pair_or_illegal (a b : Byte) :
    (∃ i j : Fin 8, a.toNat = i.val ∧ b.toNat = j.val) ∨ 7 < a.toNat ∨ 7 < b.toNat := by
  obtain ⟨i, hi⟩ | ha := legal_or_illegal a
  · exact (legal_or_illegal b).imp (fun ⟨j, hj⟩ => ⟨i, j, hi, hj⟩) .inr
  · exact .inr (.inl ha)

/-- The checks of a rule leave no case open: the rule completes or one of its checks raises (R116, R234). -/
theorem effect_or_raises (i : Instr) (s : State) : (∃ t, Effect s i t) ∨ ∃ e, Raises s i e := by
  cases i with
  | ldi reg imm => exact (legal_or_illegal reg).imp (fun ⟨_, hr⟩ => ⟨_, .ldi hr⟩) fun hr => ⟨_, .ldi hr⟩
  | prn reg => exact (legal_or_illegal reg).imp (fun ⟨_, hr⟩ => ⟨_, .prn hr⟩) fun hr => ⟨_, .prn hr⟩
  | mul ra rb => exact (legal_pair_or_illegal ra rb).imp (fun ⟨_, _, hi, hj⟩ => ⟨_, .mul hi hj⟩) fun hr => ⟨_, .mul hr⟩
  | add ra rb => exact (legal_pair_or_illegal ra rb).imp (fun ⟨_, _, hi, hj⟩ => ⟨_, .add hi hj⟩) fun hr => ⟨_, .add hr⟩
  | cmp ra rb => exact (legal_pair_or_illegal ra rb).imp (fun ⟨_, _, hi, hj⟩ => ⟨_, .cmp hi hj⟩) fun hr => ⟨_, .cmp hr⟩
  | jmp reg => exact (legal_or_illegal reg).imp (fun ⟨_, hr⟩ => ⟨_, .jmp hr⟩) fun hr => ⟨_, .jmp hr⟩
  | hlt => exact .inl ⟨_, .hlt⟩
  | ret =>
    by_cases hsp : s.reg 7 = 0xFF
    · exact .inr ⟨_, .ret hsp⟩
    · exact .inl ⟨_, .ret hsp⟩
  | push reg =>
    by_cases hc : 7 < reg.toNat ∨ s.reg 7 = 0
    · exact .inr ⟨_, .push hc⟩
    · obtain ⟨hr, hsp⟩ := not_or.mp hc
      obtain ⟨r, hr⟩ := (legal_or_illegal reg).resolve_right hr
      exact .inl ⟨_, .push hr hsp⟩
  | call reg =>
    by_cases hc : 7 < reg.toNat ∨ s.reg 7 = 0 ∨ 255 < s.pc.toNat + 2
    · exact .inr ⟨_, .call hc⟩
    · obtain ⟨hr, hsp, hpc⟩ := by simpa only [not_or] using hc
      obtain ⟨r, hr⟩ := (legal_or_illegal reg).resolve_right hr
      exact .inl ⟨_, .call hr hsp (Nat.le_of_not_lt hpc)⟩
  | pop reg =>
    obtain ⟨r, hr⟩ | hr := legal_or_illegal reg
    · by_cases hsp : s.reg 7 = 0xFF
      · exact .inr ⟨_, .popEmpty hr hsp⟩
      · by_cases htop : (s.popped r).reg 7 = 0xFF
        · exact .inr ⟨_, .popTop hr hsp htop⟩
        · exact .inl ⟨_, .pop hr hsp htop⟩
    · exact .inr ⟨_, .popIndex hr⟩
  | jeq reg =>
    by_cases hfl : s.fl = .equal
    · exact (legal_or_illegal reg).imp (fun ⟨_, hr⟩ => ⟨_, .jeqTaken hfl hr⟩) fun hr => ⟨_, .jeq hfl hr⟩
    · exact .inl ⟨_, .jeqUntaken hfl⟩
  | jne reg =>
    by_cases hfl : s.fl = .equal
    · exact .inl ⟨_, .jneUntaken hfl⟩
    · exact (legal_or_illegal reg).imp (fun ⟨_, hr⟩ => ⟨_, .jneTaken hfl hr⟩) fun hr => ⟨_, .jne hfl hr⟩

/-- What an executed instruction answers, said once: its rule completed, or one of its checks raised from the state it began in. -/
theorem exec_next {s t : State} {i : Instr} (h : exec i s = .next t) :
    Effect s i t ∨ ∃ e, Raises s i e ∧ t = s.raise e := by
  obtain ⟨u, hu⟩ | ⟨e, he⟩ := effect_or_raises i s
  · obtain rfl : u = t := by simpa [exec_of_effect hu] using h
    exact .inl hu
  · exact .inr ⟨e, he, by simpa [exec_of_raises he, eq_comm] using h⟩

/-- What a step answers, said once: the fetched instruction's rule completed, or a check of it or of its fetch raised. -/
theorem step_next {s t : State} (h : step s = .next t) :
    (∃ i, fetch s = .ok i ∧ Effect s i t) ∨
      ∃ e, (fetch s = .error e ∨ ∃ i, fetch s = .ok i ∧ Raises s i e) ∧ t = s.raise e := by
  obtain ⟨_, ⟨i, hf, hx⟩ | ⟨e, hf, ht⟩⟩ := step_cases h
  · obtain he | ⟨e, hr, ht⟩ := exec_next hx
    · exact .inl ⟨i, hf, he⟩
    · exact .inr ⟨e, .inr ⟨i, hf, hr⟩, ht⟩
  · exact .inr ⟨e, .inl hf, ht⟩

/-! ### The errors a step can raise -/

/-- Only POP and RET, which move the stack pointer up, raise anything but `OutOfRange` (R192, R193). -/
theorem Raises.eq_outOfRange {s : State} {i : Instr} {e : ErrorKind} (h : Raises s i e)
    (hpop : ∀ reg, i ≠ .pop reg) (hret : i ≠ .ret) : e = .outOfRange := by
  cases h with
  | popEmpty | popTop => exact absurd rfl (hpop _)
  | ret => exact absurd rfl hret
  | _ => rfl

theorem Raises.outOfRange_or_stackUnderflow {s : State} {i : Instr} {e : ErrorKind} (h : Raises s i e) :
    e = .outOfRange ∨ e = .stackUnderflow := by
  cases h with
  | popEmpty | popTop | ret => exact .inr rfl
  | _ => exact .inl rfl

/-- A sequence raises in its first part or in what follows it. -/
theorem bind_eq_error {α β : Type} {x : Except ErrorKind α} {k : α → Except ErrorKind β} {e : ErrorKind}
    (h : (x >>= k) = .error e) : x = .error e ∨ ∃ a, x = .ok a ∧ k a = .error e := by
  cases x with
  | ok a => exact .inr ⟨a, rfl, h⟩
  | error e' => exact .inl (by simpa using h)

theorem memRead_error {a : Nat} {s : State} {e : ErrorKind} (h : memRead a s = .error e) : e = .outOfRange := by
  obtain ⟨_, hm⟩ | ⟨_, hm⟩ := memRead_cases a s <;> rw [hm] at h <;> cases h
  rfl

theorem memReadCells_error {a n : Nat} {s : State} {e : ErrorKind} (h : memReadCells a n s = .error e) :
    e = .outOfRange := by
  induction n generalizing a with
  | zero => cases h
  | succ n ih =>
    obtain hb | ⟨b, _, hbs⟩ := bind_eq_error h
    · exact memRead_error hb
    · obtain hr | ⟨bs, _, hp⟩ := bind_eq_error hbs
      · exact ih hr
      · cases hp

/-- A cell of the instruction that does not exist is the only error of reading its bytes (R111). -/
theorem fetchBytes_error {s : State} {e : ErrorKind} (h : fetchBytes s = .error e) : e = .outOfRange := by
  obtain hop | ⟨op, _, hrest⟩ := bind_eq_error h
  · exact memRead_error hop
  · obtain hops | ⟨ops, _, hp⟩ := bind_eq_error hrest
    · exact memReadCells_error hops
    · cases hp

theorem decodeErrorKind_cases (d : DecodeError) :
    decodeErrorKind d = .outOfRange ∨ decodeErrorKind d = .unknownOpcode := by
  cases d with
  | unknownOpcode => exact .inr rfl
  | noOpcode | operandsMissing => exact .inl rfl

/-- Fetch and decode raise `OutOfRange` or `UnknownOpcode` only (R111, R112). -/
theorem fetch_error {s : State} {e : ErrorKind} (h : fetch s = .error e) : e = .outOfRange ∨ e = .unknownOpcode := by
  obtain hb | ⟨bytes, _, hd⟩ := bind_eq_error h
  · exact .inl (fetchBytes_error hb)
  · split at hd
    · cases hd
    · next d _ => cases hd; exact decodeErrorKind_cases d

/-! ## The machine invariant -/

/-- The sequential advance from a cell of memory is exact in 9 bits (R28). -/
theorem State.loadSeq_pc_toNat {s : State} {n : Nat} (hpc : s.pc.toNat ≤ 255) (hn : n ≤ 2) :
    (s.loadSeq n).pc.toNat = s.pc.toNat + 1 + n := by
  rw [State.loadSeq_pc, BitVec.toNat_ofNat, Nat.mod_eq_of_lt (by omega)]

theorem State.loadTarget_pc_toNat (s : State) (b : Byte) : (s.loadTarget b).pc.toNat = b.toNat := by
  rw [State.loadTarget_pc]
  exact BitVec.toNat_setWidth_of_le (by decide)

theorem State.Inv.loadSeq {s : State} {n : Nat} (h : s.Inv) (hpc : s.pc.toNat ≤ 255) (hn : n ≤ 2) : (s.loadSeq n).Inv := by
  obtain ⟨hmem, _, hrun, hcause⟩ := h
  exact ⟨hmem, by rw [State.loadSeq_pc_toNat hpc hn]; omega, hrun, hcause⟩

theorem State.Inv.loadTarget {s : State} (h : s.Inv) (b : Byte) : (s.loadTarget b).Inv := by
  obtain ⟨hmem, _, hrun, hcause⟩ := h
  exact ⟨hmem, by rw [State.loadTarget_pc_toNat]; have := b.isLt; omega, hrun, hcause⟩

/-- The invariant speaks of memory, `pc`, `run` and `cause` only. -/
theorem State.Inv.congr {s t : State} (h : s.Inv) (hmem : t.mem = s.mem) (hpc : t.pc = s.pc) (hrun : t.run = s.run)
    (hcause : t.cause = s.cause) : t.Inv := by
  simpa only [State.Inv, hmem, hpc, hrun, hcause] using h

/-- Halting with a cause keeps the invariant: HALTED and a cause other than NONE go together (R33). -/
theorem State.Inv.halt {s : State} {c : Cause} (h : s.Inv) (hnone : c ≠ .none) (hun : c ≠ .unsupportedOperation) :
    (s.halt c).Inv := by
  obtain ⟨hmem, hpc, _, _⟩ := h
  exact ⟨hmem, hpc, by simp [hnone], hun⟩

theorem ErrorKind.cause_ne_none (e : ErrorKind) : e.cause ≠ .none := by cases e <;> decide

theorem ErrorKind.cause_ne_unsupported {e : ErrorKind} (he : e ≠ .unsupportedOperation) :
    e.cause ≠ .unsupportedOperation := by
  cases e with
  | unsupportedOperation => exact absurd rfl he
  | _ => decide

theorem State.Inv.raise {s : State} {e : ErrorKind} (h : s.Inv) (he : e ≠ .unsupportedOperation) : (s.raise e).Inv :=
  h.halt e.cause_ne_none (ErrorKind.cause_ne_unsupported he)

/-- The stack pointer is a byte, so what lies at it is a cell of memory and a stored byte keeps the form of memory. -/
theorem State.Inv.pushed {s : State} (h : s.Inv) (v : Byte) : (s.pushed v).Inv := by
  obtain ⟨hmem, hrest⟩ := h
  exact ⟨Memory.wf_write v (s.reg 7 - 1).isLt hmem, hrest⟩

/-- A completed instruction keeps the invariant. -/
theorem Effect.keeps_inv {s t : State} {i : Instr} (h : Effect s i t) (hs : s.Inv) (hpc : s.pc.toNat ≤ 255) : t.Inv := by
  cases h with
  | hlt => exact hs.halt (by decide) (by decide)
  | ret | jeqTaken | jneTaken | jmp => exact hs.loadTarget _
  | call => exact (hs.pushed _).loadTarget _
  | push => exact (hs.pushed _).loadSeq hpc (by decide)
  | ldi | prn | mul | add | pop | cmp | jeqUntaken | jneUntaken =>
    exact (hs.congr rfl rfl rfl rfl).loadSeq hpc (by decide)

/-- Settles O3: a completed instruction and an exception each keep the invariant, and no check of a step raises
UnsupportedOperation (R144, R194). -/
theorem stepKeepsInvariant : Obligations.StepKeepsInvariant := by
  intro s t hs h
  obtain ⟨i, hf, he⟩ | ⟨e, hr, rfl⟩ := step_next h
  · exact he.keeps_inv hs (fetch_ok_pc hf)
  · refine hs.raise ?_
    obtain hf | ⟨i, _, hr⟩ := hr
    · obtain rfl | rfl := fetch_error hf <;> decide
    · obtain rfl | rfl := hr.outOfRange_or_stackUnderflow <;> decide

/-! ## Illegal register bytes -/

theorem not_legalReg {b : Byte} (h : legalReg b = false) : 7 < b.toNat := by
  simpa [legalReg] using h

theorem not_legalReg_pair {a b : Byte} (h : (legalReg a && legalReg b) = false) : 7 < a.toNat ∨ 7 < b.toNat :=
  (Bool.and_eq_false_iff.mp h).imp not_legalReg not_legalReg

/-- An instruction with an illegal register byte raises `OutOfRange` where it accesses the register (R25, R92). -/
theorem raises_of_not_wellFormed {i : Instr} {s : State} (h : i.wellFormed = false)
    (hjeq : ∀ reg, i = .jeq reg → s.fl = .equal) (hjne : ∀ reg, i = .jne reg → s.fl ≠ .equal) :
    Raises s i .outOfRange := by
  cases i with
  | ldi => exact .ldi (not_legalReg h)
  | prn => exact .prn (not_legalReg h)
  | mul => exact .mul (not_legalReg_pair h)
  | add => exact .add (not_legalReg_pair h)
  | push => exact .push (.inl (not_legalReg h))
  | pop => exact .popIndex (not_legalReg h)
  | call => exact .call (.inl (not_legalReg h))
  | cmp => exact .cmp (not_legalReg_pair h)
  | jeq => exact .jeq (hjeq _ rfl) (not_legalReg h)
  | jne => exact .jne (hjne _ rfl) (not_legalReg h)
  | jmp => exact .jmp (not_legalReg h)
  | ret | hlt => cases h

/-- Settles O29: the instruction's check raises, and taking the exception changes `run` and `cause` only. -/
theorem illegalRegisterByteRaisesOutOfRange : Obligations.IllegalRegisterByteRaisesOutOfRange :=
  fun _ _ h hjeq hjne => exec_of_raises (raises_of_not_wellFormed h hjeq hjne)

/-! ## Frames -/

/-- A register other than the operand's is another register. -/
theorem ne_of_val_ne {b : Byte} {i r : Fin 8} (hb : b.toNat = i.val) (hr : r.val ≠ b.toNat) : r ≠ i :=
  fun h => hr (by rw [hb, h])

/-- Settles O30: LDI and ADD write their first operand's register and advance; their only error is `OutOfRange`. -/
theorem frameOfLdiAndAdd : Obligations.FrameOfLdiAndAdd := by
  intro i d s t hi h
  obtain he | ⟨e, hr, rfl⟩ := exec_next h
  · obtain ⟨imm, rfl⟩ | ⟨rb, rfl⟩ := hi
    · cases he with
      | ldi hd => exact ⟨fun r hr => by simp [ne_of_val_ne hd hr], rfl, rfl, fun _ => rfl, .inl ⟨rfl, rfl⟩⟩
    · cases he with
      | add hd _ => exact ⟨fun r hr => by simp [ne_of_val_ne hd hr], rfl, rfl, fun _ => rfl, .inl ⟨rfl, rfl⟩⟩
  · obtain rfl : e = .outOfRange := hr.eq_outOfRange (by grind) (by grind)
    exact ⟨fun _ _ => rfl, rfl, rfl, fun _ => rfl, .inr ⟨rfl, rfl⟩⟩

/-- Settles O31: PRN and MUL emit one value and advance; their only error is `OutOfRange`. -/
theorem frameOfPrnAndMul : Obligations.FrameOfPrnAndMul := by
  intro i s t hi h
  obtain he | ⟨e, hr, rfl⟩ := exec_next h
  · obtain ⟨reg, rfl⟩ | ⟨ra, rb, rfl⟩ := hi <;> cases he <;>
      exact ⟨fun _ => rfl, rfl, fun _ => rfl, .inl ⟨rfl, rfl, _, rfl⟩⟩
  · obtain rfl : e = .outOfRange := hr.eq_outOfRange (by grind) (by grind)
    exact ⟨fun _ => rfl, rfl, fun _ => rfl, .inr ⟨rfl, rfl, rfl⟩⟩

/-- A stored byte changes `x[7]` and the cell at the decremented stack pointer, whatever the byte is. -/
theorem State.pushed_frame {s : State} (hsp : s.reg 7 ≠ 0) (v : Byte) :
    (∀ r : Fin 8, r ≠ 7 → (s.pushed v).reg r = s.reg r) ∧
    (∀ sp, spDec s = .ok sp → ∀ a, a ≠ sp.toNat → (s.pushed v).mem.read a = s.mem.read a) := by
  refine ⟨fun r hr => by simp [hr], fun sp hd a ha => ?_⟩
  obtain rfl : s.reg 7 - 1 = sp := by simpa [spDec_ok hsp] using hd
  rw [State.pushed_mem, Memory.read_write, if_neg ha]

/-- Settles O32: PUSH and CALL store one byte below the stack pointer, and their only error is `OutOfRange`, taken before any
write counts (R196). -/
theorem frameOfPushAndCall : Obligations.FrameOfPushAndCall := by
  intro i s t hi h
  obtain he | ⟨e, hr, rfl⟩ := exec_next h
  · obtain ⟨reg, rfl⟩ | ⟨reg, rfl⟩ := hi
    · cases he with
      | push _ hsp =>
        obtain ⟨hreg, hmem⟩ := State.pushed_frame hsp _
        exact ⟨hreg, rfl, rfl, hmem, fun e hd => by simp [spDec_ok hsp] at hd, .inl ⟨rfl, rfl⟩⟩
    · cases he with
      | call _ hsp _ =>
        obtain ⟨hreg, hmem⟩ := State.pushed_frame hsp _
        exact ⟨hreg, rfl, rfl, hmem, fun e hd => by simp [spDec_ok hsp] at hd, .inl ⟨rfl, rfl⟩⟩
  · obtain rfl : e = .outOfRange := hr.eq_outOfRange (by grind) (by grind)
    exact ⟨fun _ _ => rfl, rfl, rfl, fun _ _ _ _ => rfl, fun _ _ _ => rfl, .inr ⟨rfl, rfl, rfl, fun _ => rfl⟩⟩

/-- Settles O33: POP and RET move the stack pointer up and POP writes its operand; an exception leaves every register. -/
theorem frameOfPopAndRet : Obligations.FrameOfPopAndRet := by
  intro i s t hi h
  obtain he | ⟨e, hr, rfl⟩ := exec_next h
  · obtain ⟨reg, rfl⟩ | rfl := hi
    · cases he with
      | pop hreg _ _ =>
        refine ⟨fun q h7 hq => ?_, rfl, rfl, fun _ => rfl, .inl ⟨rfl, rfl⟩⟩
        simp [h7, ne_of_val_ne hreg (hq _ rfl)]
    · cases he
      exact ⟨fun q h7 _ => by simp [h7], rfl, rfl, fun _ => rfl, .inl ⟨rfl, rfl⟩⟩
  · have hcause : e.cause = .outOfRange ∨ e.cause = .stackUnderflow :=
      hr.outOfRange_or_stackUnderflow.imp (congrArg ErrorKind.cause) (congrArg ErrorKind.cause)
    exact ⟨fun _ _ _ => rfl, rfl, rfl, fun _ => rfl, .inr ⟨rfl, hcause, fun _ => rfl⟩⟩

/-- Settles O34: of the five, CMP sets the flag, a branch or jump sets `pc`, and HLT halts where it stands; the only error is
`OutOfRange`. -/
theorem frameOfCompareBranchAndHalt : Obligations.FrameOfCompareBranchAndHalt := by
  intro i s t hi h
  obtain he | ⟨e, hr, rfl⟩ := exec_next h
  · obtain ⟨ra, rb, rfl⟩ | ⟨reg, rfl⟩ | ⟨reg, rfl⟩ | ⟨reg, rfl⟩ | rfl := hi
    · cases he
      exact ⟨fun _ => rfl, rfl, fun _ => rfl, fun hne => absurd rfl (hne ra rb), .inl ⟨by simp, rfl, rfl⟩⟩
    · cases he <;>
        exact ⟨fun _ => rfl, rfl, fun _ => rfl, fun _ => rfl, .inl ⟨by simp, rfl, rfl⟩⟩
    · cases he <;>
        exact ⟨fun _ => rfl, rfl, fun _ => rfl, fun _ => rfl, .inl ⟨by simp, rfl, rfl⟩⟩
    · cases he
      exact ⟨fun _ => rfl, rfl, fun _ => rfl, fun _ => rfl, .inl ⟨by simp, rfl, rfl⟩⟩
    · cases he
      exact ⟨fun _ => rfl, rfl, fun _ => rfl, fun _ => rfl, .inr (.inr ⟨rfl, rfl, rfl, rfl⟩)⟩
  · obtain rfl : e = .outOfRange := hr.eq_outOfRange (by grind) (by grind)
    have hne : i ≠ .hlt := by rintro rfl; cases hr
    exact ⟨fun _ => rfl, rfl, fun _ => rfl, fun _ => rfl, .inr (.inl ⟨hne, rfl, rfl, rfl, rfl⟩)⟩

/-! ## Output -/

/-- A completed instruction leaves the output alone, or it is a PRN or a MUL and appends its value (R35). -/
theorem Effect.out_cases {s t : State} {i : Instr} (h : Effect s i t) :
    t.out = s.out ∨
    (∃ (r : Fin 8) (reg : Byte), reg.toNat = r.val ∧ i = .prn reg ∧ t.out = s.out ++ [s.reg r]) ∨
    (∃ (j k : Fin 8) (ra rb : Byte), ra.toNat = j.val ∧ rb.toNat = k.val ∧ i = .mul ra rb ∧
      t.out = s.out ++ [BitVec.ofNat 8 ((s.reg j).toNat * (s.reg k).toNat)]) := by
  cases h with
  | prn hr => exact .inr (.inl ⟨_, _, hr, rfl, rfl⟩)
  | mul hj hk => exact .inr (.inr ⟨_, _, _, _, hj, hk, rfl, rfl⟩)
  | _ => exact .inl rfl

/-- A byte is made from a number modulo 256 (R104, R142). -/
theorem ofNat_mod_256 (n : Nat) : BitVec.ofNat 8 (n % 256) = BitVec.ofNat 8 n :=
  BitVec.eq_of_toNat_eq (by simp)

/-- Settles O37: a completed instruction appends at most its value (`Effect.out_cases`), an exception nothing. -/
theorem outputGrowsOnlyByPrnAndMul : Obligations.OutputGrowsOnlyByPrnAndMul := by
  intro s t h
  obtain ⟨i, hf, he⟩ | ⟨e, _, rfl⟩ := step_next h
  · obtain hout | ⟨r, reg, hr, rfl, hout⟩ | ⟨j, k, ra, rb, hj, hk, rfl, hout⟩ := he.out_cases
    · exact .inl hout
    · exact .inr (.inl ⟨r, reg, hr, hf, hout⟩)
    · exact .inr (.inr ⟨j, k, ra, rb, hj, hk, hf, by rw [hout, ofNat_mod_256]⟩)
  · exact .inl rfl

/-! ## Reset, the advance of `pc`, ports -/

/-- Settles O1: register by register; no cell is listed, so every cell reads 0. -/
theorem resetLeavesEveryStateAtItsValue : Obligations.ResetLeavesEveryStateAtItsValue :=
  ⟨by decide, rfl, rfl, rfl, rfl, fun _ => rfl, rfl⟩

/-- Settles O2, clause by clause of the invariant. -/
theorem resetMeetsInvariant : Obligations.ResetMeetsInvariant :=
  ⟨reset_mem_wf, by decide, by decide, by decide⟩

/-- Settles O14 by the two exact advances of `pc`. -/
theorem sequentialAdvanceNeverWraps : Obligations.SequentialAdvanceNeverWraps :=
  fun s => ⟨fun _ hpc hn => State.loadSeq_pc_toNat hpc hn, s.loadTarget_pc_toNat⟩

/-- Settles O44: the codes in order, and `halted` as a test of `run`. -/
theorem portsShowRunAndCause : Obligations.PortsShowRunAndCause :=
  ⟨rfl, fun s => ⟨by simp [haltedPort], rfl⟩⟩

end Sys2Proof.Machine

/-! ## Memory: its canonical form, who writes it, and what the next fetch sees (`spec/20_memory.md`) -/

namespace Sys2Proof.Machine

/-! ### The canonical form -/

theorem Memory.read_cons (k a : Nat) (v : Byte) (m : Memory) :
    Memory.read ((k, v) :: m) a = if k = a then v else m.read a := rfl

theorem Memory.wfFrom_cons {lo k : Nat} {v : Byte} {m : Memory} :
    Memory.wfFrom lo ((k, v) :: m) = true ↔
      lo ≤ k ∧ k < Config.N ∧ v ≠ Memory.unlisted ∧ Memory.wfFrom (k + 1) m = true := by
  simp [Memory.wfFrom, and_assoc]

/-- The first listed cell is the lowest one that does not read as unlisted. -/
theorem Memory.first_le_of_read_ne {lo k a : Nat} {v : Byte} {m : Memory} (hm : Memory.wfFrom lo ((k, v) :: m) = true)
    (ha : Memory.read ((k, v) :: m) a ≠ Memory.unlisted) : k ≤ a := by
  obtain ⟨_, hrest⟩ := Memory.wfFrom_cons.mp hm
  have hk : Memory.wfFrom k ((k, v) :: m) = true := Memory.wfFrom_cons.mpr ⟨le_rfl, hrest⟩
  exact Nat.le_of_not_lt fun hlt => ha (Memory.read_below hk hlt)

theorem Memory.read_first_ne {lo k : Nat} {v : Byte} {m : Memory} (hm : Memory.wfFrom lo ((k, v) :: m) = true) :
    Memory.read ((k, v) :: m) k ≠ Memory.unlisted := by
  obtain ⟨_, _, hv, _⟩ := Memory.wfFrom_cons.mp hm
  rwa [Memory.read_cons, if_pos rfl]

/-- A memory in canonical form is determined by what it reads: the first listed cells are the same, and so are the rests, which
both read as unlisted at that cell. -/
theorem Memory.eq_of_read_eq {lo : Nat} {m n : Memory} (hm : Memory.wfFrom lo m = true) (hn : Memory.wfFrom lo n = true)
    (h : ∀ a, m.read a = n.read a) : m = n := by
  induction m generalizing lo n with
  | nil =>
    cases n with
    | nil => rfl
    | cons d n => exact absurd (h d.1).symm (Memory.read_first_ne hn)
  | cons c m ih =>
    cases n with
    | nil => exact absurd (h c.1) (Memory.read_first_ne hm)
    | cons d n =>
      obtain ⟨k, v⟩ := c
      obtain ⟨l, w⟩ := d
      have hkl : k ≤ l := Memory.first_le_of_read_ne hm (h l ▸ Memory.read_first_ne hn)
      have hlk : l ≤ k := Memory.first_le_of_read_ne hn (h k ▸ Memory.read_first_ne hm)
      obtain rfl : k = l := Nat.le_antisymm hkl hlk
      obtain rfl : v = w := by simpa [Memory.read_cons] using h k
      obtain ⟨_, _, _, hm⟩ := Memory.wfFrom_cons.mp hm
      obtain ⟨_, _, _, hn⟩ := Memory.wfFrom_cons.mp hn
      have hrest : ∀ a, Memory.read m a = Memory.read n a := fun a => by
        by_cases hka : k = a
        · rw [← hka, Memory.read_below hm k.lt_succ_self, Memory.read_below hn k.lt_succ_self]
        · simpa [Memory.read_cons, hka] using h a
      rw [ih hm hn hrest]

/-- Settles O5: the canonical form is the one of `Memory.eq_of_read_eq` from address 0. -/
theorem canonicalMemoriesAreEqualWhenTheyReadEqual : Obligations.CanonicalMemoriesAreEqualWhenTheyReadEqual :=
  fun _ _ hm hn h => Memory.eq_of_read_eq hm hn h

/-! ### Stores -/

/-- A completed instruction leaves memory alone, or it is a PUSH or a CALL and writes the cell at the decremented stack pointer
(R52, R158). -/
theorem Effect.mem_cases {s t : State} {i : Instr} (h : Effect s i t) :
    t.mem = s.mem ∨
    ∃ reg v : Byte, (i = .push reg ∨ i = .call reg) ∧ s.reg 7 ≠ 0 ∧ t.mem = s.mem.write (s.reg 7 - 1).toNat v := by
  cases h with
  | push _ hsp => exact .inr ⟨_, _, .inl rfl, hsp, rfl⟩
  | call _ hsp _ => exact .inr ⟨_, _, .inr rfl, hsp, rfl⟩
  | _ => exact .inl rfl

/-- Settles O35: a completed instruction writes at most its cell (`Effect.mem_cases`), an exception none. -/
theorem memoryIsWrittenOnlyByPushAndCall : Obligations.MemoryIsWrittenOnlyByPushAndCall := by
  intro s t h
  obtain ⟨i, hf, he⟩ | ⟨e, _, rfl⟩ := step_next h
  · obtain hmem | ⟨reg, v, hi, hsp, hmem⟩ := he.mem_cases
    · exact .inl hmem
    · exact .inr ⟨reg, s.reg 7 - 1, v, by simpa [hf] using hi, spDec_ok hsp, hmem⟩
  · exact .inl rfl

/-! ### The fetch after a store -/

/-- A sequence that completes has completed its first part. -/
theorem bind_eq_ok {α β : Type} {x : Except ErrorKind α} {k : α → Except ErrorKind β} {b : β}
    (h : (x >>= k) = .ok b) : ∃ a, x = .ok a ∧ k a = .ok b := by
  cases x with
  | ok a => exact ⟨a, rfl, h⟩
  | error e => cases h

theorem memRead_ok {a : Nat} {s : State} {v : Byte} (h : memRead a s = .ok v) : v = s.mem.read a := by
  obtain ⟨_, hm⟩ | ⟨_, hm⟩ := memRead_cases a s <;> rw [hm] at h <;> cases h
  rfl

/-- The first byte of a successful fetch is the cell at `pc` (R101, R111). -/
theorem fetchBytes_head {s : State} {bytes : List Byte} (h : fetchBytes s = .ok bytes) :
    bytes.head? = some (s.mem.read s.pc.toNat) := by
  obtain ⟨op, hop, hrest⟩ := bind_eq_ok h
  obtain ⟨ops, _, hbytes⟩ := bind_eq_ok hrest
  cases hbytes
  exact congrArg some (memRead_ok hop)

/-- From a state with the memory a store left and `pc` at the cell it wrote, the first byte fetched is the byte stored: a fetch
reads memory as it is (R64). -/
theorem fetchBytes_head_of_stored {s t : State} {v : Byte} {bytes : List Byte} (hb : fetchBytes t = .ok bytes)
    (hmem : t.mem = (s.pushed v).mem) (hsp : s.reg 7 ≠ 0) (hpc : t.pc.toNat = (s.reg 7).toNat - 1) :
    bytes.head? = some v := by
  have haddr : t.pc.toNat = (s.reg 7 - 1).toNat := by bv_omega
  rw [fetchBytes_head hb, hmem, State.pushed_mem, haddr, Memory.read_write, if_pos rfl]

/-- Settles O39: PUSH and CALL each complete and leave the memory of their store (`exec_of_effect`), which the next fetch reads. -/
theorem storeIsSeenByTheNextFetch : Obligations.StoreIsSeenByTheNextFetch := by
  constructor
  · intro r reg s t bytes hr hsp hx hpc hb
    rw [exec_of_effect (.push hr hsp)] at hx
    cases hx
    exact fetchBytes_head_of_stored hb rfl hsp hpc
  · intro reg s t bytes hreg hsp hback hx hpc hb
    obtain ⟨r, hr⟩ := (legal_or_illegal reg).resolve_right (by omega)
    rw [exec_of_effect (.call hr hsp hback)] at hx
    cases hx
    exact fetchBytes_head_of_stored hb rfl hsp hpc

end Sys2Proof.Machine

/-! ## The encoding: decode against encode, and the bytes that are no opcode (`spec/30_encoding.md`) -/

namespace Sys2Proof

/-! ### The decoder's answers, said once -/

/-- What `decode` accepts: a known opcode byte and operand bytes that assemble under it (R88, R102). -/
theorem decode_ok_iff {bytes rest : List Byte} {i : Instr} :
    decode bytes = .ok (i, rest) ↔ ∃ mn ops, bytes = opc mn :: ops ∧ assemble mn ops = some (i, rest) := by
  constructor
  · intro h
    cases bytes with
    | nil => cases h
    | cons op ops =>
      cases hl : lookupOpcode op with
      | none => simp [decode, hl] at h
      | some mn =>
        obtain rfl := lookupOpcode_some hl
        cases ha : assemble mn ops with
        | none => simp [decode, ha] at h
        | some r => exact ⟨mn, ops, rfl, by simpa [decode, ha] using h⟩
  · rintro ⟨mn, ops, rfl, ha⟩
    simp [decode, ha]

/-- A byte outside the table is rejected by name, whatever follows it (R90, R112). -/
theorem decode_unknown {op : Byte} (h : lookupOpcode op = none) (ops : List Byte) :
    decode (op :: ops) = .error (.unknownOpcode op) := by
  simp [decode, h]

/-- No operand of an unknown opcode is fetched (R112). -/
theorem operandCountOf_unknown {op : Byte} (h : lookupOpcode op = none) : operandCountOf op = 0 := by
  simp [operandCountOf, h]

/-- The operand bytes of a mnemonic assemble to the one instruction they were taken from (R81 to R87). -/
theorem assemble_eq_some_iff {mn : Mnemonic} {ops rest : List Byte} {i : Instr} :
    assemble mn ops = some (i, rest) ↔ mn = i.mnemonic ∧ ops = i.operands ++ rest := by
  constructor
  · intro h
    unfold assemble at h
    split at h <;> cases h <;> exact ⟨rfl, rfl⟩
  · rintro ⟨rfl, rfl⟩
    cases i <;> rfl

/-! ### Decode and encode -/

/-- The bytes that decode to an instruction are its encoding: its opcode byte, then its operand bytes. -/
theorem decode_ok_iff_eq_encode {bytes rest : List Byte} {i : Instr} :
    decode bytes = .ok (i, rest) ↔ bytes = encode i ++ rest := by
  simp [decode_ok_iff, assemble_eq_some_iff, encode]

theorem decode_encode_append (i : Instr) (rest : List Byte) : decode (encode i ++ rest) = .ok (i, rest) :=
  decode_ok_iff_eq_encode.mpr rfl

/-- Settles O6: the two directions of `decode_ok_iff_eq_encode`. -/
theorem decodingIsInverseToEncoding : Obligations.DecodingIsInverseToEncoding :=
  ⟨decode_encode_append, fun _ _ _ => decode_ok_iff_eq_encode.mp⟩

/-- Settles O7: each word is the encoding of its instruction, with nothing after it. -/
theorem wordsOfTheTableDecode : Obligations.WordsOfTheTableDecode :=
  ⟨decode_encode_append (.ldi 0 8) [], decode_encode_append (.prn 2) [], decode_encode_append (.add 0 1) [],
    decode_encode_append (.push 3) [], decode_encode_append (.call 1) [], decode_encode_append .ret [],
    decode_encode_append (.cmp 0 2) [], decode_encode_append .hlt []⟩

end Sys2Proof

namespace Sys2Proof.Machine

/-! ### Unknown opcode bytes -/

/-- The decoder does not know a byte that is none of the table's 13 (R80, R88). -/
theorem lookupOpcode_eq_none_iff (b : Byte) : lookupOpcode b = none ↔
    b.toNat ∉ [0x82, 0x47, 0xA2, 0xA0, 0x45, 0x46, 0x50, 0x11, 0xA7, 0x55, 0x56, 0x54, 0x01] := by
  change _ ↔ b.toNat ∉ mnemonics.map fun mn => (opc mn).toNat
  simp [lookupOpcode, BitVec.toNat_inj]

/-- R90's ranges are the complement of the table's 13 bytes. -/
theorem unknownByte_iff (b : Byte) : unknownByte b = true ↔ lookupOpcode b = none := by
  have hb := b.isLt
  simp only [lookupOpcode_eq_none_iff, unknownByte, decide_eq_true_eq, List.mem_cons, List.not_mem_nil,
    or_false, not_or]
  omega

/-- The bytes of an instruction that lies within memory are read in order (R101, R111). -/
theorem fetchBytes_inRange {s : State} (h : s.pc.toNat + operandCountOf (s.mem.read s.pc.toNat) ≤ 255) :
    fetchBytes s = .ok (s.mem.read s.pc.toNat ::
      (List.range (operandCountOf (s.mem.read s.pc.toNat))).map fun k => s.mem.read (s.pc.toNat + 1 + k)) := by
  have hop := memRead_inRange (show s.pc.toNat ≤ 255 by omega) s
  have hoperands := memReadCells_inRange (operandCountOf (s.mem.read s.pc.toNat)) (a := s.pc.toNat + 1) s (by omega)
  simp [fetchBytes, hop, hoperands]

/-- Fetching an unknown opcode raises `UnknownOpcode` (R112). -/
theorem fetch_unknown {s : State} (hpc : s.pc.toNat ≤ 255) (h : lookupOpcode (s.mem.read s.pc.toNat) = none) :
    fetch s = .error .unknownOpcode := by
  have hbytes := fetchBytes_inRange (s := s) (by rwa [operandCountOf_unknown h])
  simp [fetch, hbytes, decode_unknown h, decodeErrorKind]

/-- The diagnostic of the exception is the byte that raised it and its address (R191). -/
theorem diagnostic_raise_unknownOpcode (s : State) :
    diagnostic (s.raise .unknownOpcode) = some (s.pc, s.mem.read s.pc.toNat) := rfl

/-- Settles O8: the listed bytes are those the lookup does not find (`unknownByte_iff`), and the fetch of one raises. -/
theorem unknownOpcodeStopsAndChangesNothingElse : Obligations.UnknownOpcodeStopsAndChangesNothingElse := by
  refine ⟨fun b => ?_, fun s hrun hpc hb => ?_⟩
  · rw [Bool.eq_iff_iff, unknownByte_iff, Option.isNone_iff_eq_none]
  · have hfetch := fetch_unknown hpc ((unknownByte_iff _).mp hb)
    exact ⟨step_of_fetch_error hrun hfetch, diagnostic_raise_unknownOpcode s⟩

end Sys2Proof.Machine

/-! ## The core's units and the step (`spec/40_core_units_and_step.md`) -/

namespace Sys2Proof

/-- An instruction has as many operand bytes as the opcode table gives its mnemonic (R80, R81). -/
@[simp] theorem Instr.length_operands (i : Instr) : i.operands.length = operandCount i.mnemonic := by
  cases i <;> rfl

end Sys2Proof

namespace Sys2Proof.Machine

/-! ### Fetching -/

/-- An instruction that lies within memory from `pc` upward is the one fetched: its opcode byte is read at `pc` and its operands
from `pc + 1` (R101, R111). -/
theorem fetch_inRange {s : State} {i : Instr} (hpc : s.pc.toNat + operandCount i.mnemonic ≤ 255)
    (hop : s.mem.read s.pc.toNat = opc i.mnemonic)
    (hops : (List.range (operandCount i.mnemonic)).map (fun k => s.mem.read (s.pc.toNat + 1 + k)) = i.operands) :
    fetch s = .ok i := by
  have hcount : operandCountOf (s.mem.read s.pc.toNat) = operandCount i.mnemonic := by rw [hop, operandCountOf_opc]
  have hbytes : fetchBytes s = .ok (encode i) := by
    rw [fetchBytes_inRange (by rwa [hcount]), hcount, hops, hop, encode]
  have hdecode : decode (encode i) = .ok (i, []) := by simpa using decode_encode_append i []
  simp [fetch, hbytes, hdecode]

/-- Fetching from a `pc` that is no address raises `OutOfRange` (R111). -/
theorem fetch_opcode_outOfRange {s : State} (hpc : 255 < s.pc.toNat) : fetch s = .error .outOfRange := by
  simp [fetch, fetchBytes, memRead_outOfRange hpc, bind, Except.bind]

/-- Fetching a known opcode one of whose operands has no address raises `OutOfRange` (R111). -/
theorem fetch_operands_outOfRange {s : State} {mn : Mnemonic} (hpc : s.pc.toNat ≤ 255)
    (hmn : lookupOpcode (s.mem.read s.pc.toNat) = some mn) (h : 255 < s.pc.toNat + operandCount mn) :
    fetch s = .error .outOfRange := by
  have hcount : operandCountOf (s.mem.read s.pc.toNat) = operandCount mn := by
    rw [lookupOpcode_some hmn, operandCountOf_opc]
  have hoperands : memReadCells (s.pc.toNat + 1) (operandCount mn) s = .error .outOfRange :=
    memReadCells_outOfRange _ s (by omega) (by omega)
  simp [fetch, fetchBytes, memRead_inRange hpc, hcount, hoperands, bind, Except.bind]

/-- Cells from `a` upward that begin with `b :: bs` hold `b` at `a` and `bs` after it. -/
theorem cells_eq_cons_append {m : Memory} {a n : Nat} {b : Byte} {bs rest : List Byte}
    (h : ((List.range n).map fun k => m.read (a + k)) = b :: bs ++ rest) :
    bs.length < n ∧ m.read a = b ∧ ((List.range bs.length).map fun k => m.read (a + 1 + k)) = bs := by
  have hn : n = bs.length + rest.length + 1 := by simpa using congrArg List.length h
  rw [hn, List.range_succ_eq_map, List.map_cons, List.cons_append, List.cons.injEq, List.range_add,
    List.map_append, List.map_append] at h
  obtain ⟨hb, htail⟩ := h
  have hbs := List.append_inj_left htail (by simp)
  exact ⟨by omega, hb, by simpa [Function.comp_def, Nat.add_assoc, Nat.add_comm 1] using hbs⟩

/-! ### The step -/

/-- Settles O9: each clause is a step on what its fetch answers, an exception or the instruction the operand bytes give
(`assemble_exact`). -/
theorem fetchReadsOpcodeThenOperands : Obligations.FetchReadsOpcodeThenOperands := by
  refine ⟨fun s hrun hpc => ?_, fun s mn hrun hpc hmn h => ?_, fun s mn hrun hmn h => ?_⟩
  · exact step_of_fetch_error hrun (fetch_opcode_outOfRange hpc)
  · exact step_of_fetch_error hrun (fetch_operands_outOfRange hpc hmn h)
  · obtain ⟨i, -, rfl, hops⟩ := assemble_exact (mn := mn)
      (bs := (List.range (operandCount mn)).map fun k => s.mem.read (s.pc.toNat + 1 + k)) (by simp)
    exact ⟨i, rfl, hops, step_of_fetch_ok hrun (fetch_inRange h (lookupOpcode_some hmn) hops.symm)⟩

/-- Settles O10: the bytes are the instruction's encoding and what follows it, so its cells are those the fetch reads. -/
theorem stepRunsTheDecodedInstruction : Obligations.StepRunsTheDecodedInstruction := by
  intro s n i rest hrun hn hdecode
  obtain ⟨hlen, hop, hops⟩ := cells_eq_cons_append (decode_ok_iff_eq_encode.mp hdecode)
  rw [Instr.length_operands] at hlen hops
  exact step_of_fetch_ok hrun (fetch_inRange (by omega) hop hops)

theorem whenRunning_halted {s : State} (h : s.run = .halted) (o : StepOutcome) : whenRunning s o = .fault .coreHalted := by
  simp [whenRunning, h]

/-- Settles O11: the run state alone decides that there is no step, whatever would be fetched. -/
theorem haltedCoreTakesNoStep : Obligations.HaltedCoreTakesNoStep := fun _ hrun => whenRunning_halted hrun _

/-! ### The ALU -/

/-- A select other than ADD and MUL raises `UnsupportedOperation` (R104, R144). -/
theorem alu_unsupported {sel : AluSelect} (hadd : sel ≠ aluAdd) (hmul : sel ≠ aluMul) (p q : Byte) :
    alu sel p q = .error .unsupportedOperation := by
  rw [alu, if_neg hadd, if_neg hmul]

/-- Settles O28: a byte is built modulo 256 (`ofNat_mod_256`), and the other two selects are neither ADD nor MUL. -/
theorem aluAddsAndMultipliesModulo256 : Obligations.AluAddsAndMultipliesModulo256 := by
  intro p q
  rw [ofNat_mod_256, ofNat_mod_256]
  exact ⟨alu_add p q, alu_mul p q, alu_unsupported (by decide) (by decide) p q,
    alu_unsupported (by decide) (by decide) p q⟩

end Sys2Proof.Machine

/-! ## LDI and PRN (`spec/41_ldi_prn.md`) -/

namespace Sys2Proof.Machine

/-- A mnemonic's byte is fetched as the instruction whose operands are the first bytes after it, as many as the opcode table gives
the mnemonic (R80, R81, R111). -/
theorem fetchedAs_opc {mn : Mnemonic} {i : Byte → Byte → Instr} (hmn : ∀ a b, (i a b).mnemonic = mn)
    (hops : ∀ a b, (i a b).operands = [a, b].take (operandCount mn)) : FetchedAs (opc mn) (operandCount mn) i := by
  intro s hrun hpc hop
  refine ⟨fun h => ?_, fun h => ?_⟩
  · exact step_of_fetch_error hrun (fetch_operands_outOfRange hpc (by rw [hop, lookupOpcode_opc]) h)
  · have hcells : (List.range (operandCount mn)).map (fun k => s.mem.read (s.pc.toNat + 1 + k)) =
        [s.mem.read (s.pc.toNat + 1), s.mem.read (s.pc.toNat + 2)].take (operandCount mn) := by
      have hrange : List.range (operandCount mn) = (List.range 2).take (operandCount mn) := by
        rw [List.take_range, Nat.min_eq_left (operandCount_le_two mn)]
      rw [hrange, List.map_take]
      rfl
    exact step_of_fetch_ok hrun (fetch_inRange (by rwa [hmn]) (by rw [hop, hmn]) (by rw [hmn, hcells, hops]))

theorem fetchedAs_ldi : FetchedAs 0x82 2 (fun reg imm => .ldi reg imm) :=
  fetchedAs_opc (mn := .LDI) (fun _ _ => rfl) (fun _ _ => rfl)

theorem fetchedAs_prn : FetchedAs 0x47 1 (fun reg _ => .prn reg) :=
  fetchedAs_opc (mn := .PRN) (fun _ _ => rfl) (fun _ _ => rfl)

/-- Settles O15: the byte is LDI's in the opcode table, and the two ways the rule can end are `Raises` and `Effect`. -/
theorem ldiLoadsTheImmediate : Obligations.LdiLoadsTheImmediate :=
  ⟨fetchedAs_ldi, fun _ _ _ hr => exec_of_raises (.ldi hr), fun _ _ _ _ hr => exec_of_effect (.ldi hr)⟩

/-- Settles O16: the byte is PRN's in the opcode table, and the two ways the rule can end are `Raises` and `Effect`. -/
theorem prnEmitsTheRegister : Obligations.PrnEmitsTheRegister :=
  ⟨fetchedAs_prn, fun _ _ hr => exec_of_raises (.prn hr), fun _ _ _ hr => exec_of_effect (.prn hr)⟩

/-- The step of an LDI that lies within memory and names a register (R130). -/
theorem step_ldi {s : State} {r : Fin 8} {reg imm : Byte} (hrun : s.run = .running) (hpc : s.pc.toNat + 2 ≤ 255)
    (hop : s.mem.read s.pc.toNat = 0x82) (hreg : s.mem.read (s.pc.toNat + 1) = reg)
    (himm : s.mem.read (s.pc.toNat + 2) = imm) (hr : reg.toNat = r.val) :
    step s = .next ((s.setReg r imm).loadSeq 2) := by
  rw [(fetchedAs_ldi s hrun (by omega) hop).2 hpc, hreg, himm]
  exact exec_of_effect (.ldi hr)

/-- The step of a PRN that lies within memory and names a register (R132). -/
theorem step_prn {s : State} {r : Fin 8} {reg : Byte} (hrun : s.run = .running) (hpc : s.pc.toNat + 1 ≤ 255)
    (hop : s.mem.read s.pc.toNat = 0x47) (hreg : s.mem.read (s.pc.toNat + 1) = reg) (hr : reg.toNat = r.val) :
    step s = .next ((s.emit (s.reg r)).loadSeq 1) := by
  rw [(fetchedAs_prn s hrun (by omega) hop).2 hpc, hreg]
  exact exec_of_effect (.prn hr)

/-- Settles O40: PRN is fetched from where LDI's advance leaves `pc`, and reads back the register LDI has set. -/
theorem ldiThenPrnEmitsTheValue : Obligations.LdiThenPrnEmitsTheValue := by
  intro s r reg v hrun hpc hr hldi hreg hv hprn hreg'
  have hpc' : ((s.setReg r v).loadSeq 2).pc.toNat = s.pc.toNat + 3 :=
    State.loadSeq_pc_toNat (s := s.setReg r v) (show s.pc.toNat ≤ 255 by omega) le_rfl
  have hval : ((s.setReg r v).loadSeq 2).reg r = v := by simp
  have hstep := step_prn (s := (s.setReg r v).loadSeq 2) hrun (by omega) (by rwa [hpc']) (by rwa [hpc']) hr
  refine ⟨_, step_ldi hrun (by omega) hldi hreg hv hr, hstep.trans ?_⟩
  rw [hval, State.loadSeq, State.emit_pc, hpc']
  rfl

end Sys2Proof.Machine

/-! ## ADD and MUL (`spec/42_alu_mul_add.md`) -/

namespace Sys2Proof.Machine

theorem fetchedAs_add : FetchedAs 0xA0 2 (fun ra rb => .add ra rb) :=
  fetchedAs_opc (mn := .ADD) (fun _ _ => rfl) (fun _ _ => rfl)

theorem fetchedAs_mul : FetchedAs 0xA2 2 (fun ra rb => .mul ra rb) :=
  fetchedAs_opc (mn := .MUL) (fun _ _ => rfl) (fun _ _ => rfl)

/-- Settles O17: the byte is ADD's in the opcode table, and the two ways the rule can end are `Raises` and `Effect`; the byte that
`Effect` makes of the exact sum is the sum modulo 256. -/
theorem addWritesTheSumModulo256 : Obligations.AddWritesTheSumModulo256 := by
  refine ⟨fetchedAs_add, fun _ _ _ hr => exec_of_raises (.add hr), fun i j ra rb s hi hj => ?_⟩
  rw [ofNat_mod_256]
  exact exec_of_effect (.add hi hj)

/-- Settles O18: the byte is MUL's in the opcode table, and the two ways the rule can end are `Raises` and `Effect`; the byte that
`Effect` makes of the exact product is its low 8 bits. -/
theorem mulEmitsTheProductModulo256 : Obligations.MulEmitsTheProductModulo256 := by
  refine ⟨fetchedAs_mul, fun _ _ _ hr => exec_of_raises (.mul hr), fun i j ra rb s hi hj => ?_⟩
  rw [ofNat_mod_256]
  exact exec_of_effect (.mul hi hj)

end Sys2Proof.Machine

/-! ## PUSH and POP (`spec/43_stack_push_pop.md`) -/

namespace Sys2Proof.Machine

theorem fetchedAs_push : FetchedAs 0x45 1 (fun reg _ => .push reg) :=
  fetchedAs_opc (mn := .PUSH) (fun _ _ => rfl) (fun _ _ => rfl)

theorem fetchedAs_pop : FetchedAs 0x46 1 (fun reg _ => .pop reg) :=
  fetchedAs_opc (mn := .POP) (fun _ _ => rfl) (fun _ _ => rfl)

/-- Settles O19: the byte is PUSH's in the opcode table, and the two ways the rule can end are `Raises` and `Effect`. -/
theorem pushStoresBelowTheStackPointer : Obligations.PushStoresBelowTheStackPointer :=
  ⟨fetchedAs_push, fun _ _ hc => exec_of_raises (.push hc), fun _ _ _ hr hsp => exec_of_effect (.push hr hsp)⟩

/-! ### POP's second look at the pointer (R153, R154) -/

/-- POP of another register leaves the pointer to its increment. -/
theorem State.reg_seven_popped {s : State} {r : Fin 8} (h : r ≠ 7) : (s.popped r).reg 7 = s.reg 7 := by
  simp [h.symm]

/-- POP of register 7 puts the popped value in the pointer before the increment. -/
theorem State.reg_seven_popped_seven (s : State) : (s.popped 7).reg 7 = s.mem.read (s.reg 7).toNat := by
  simp

/-- POP of register 7 writes the popped value and then its increment over it. -/
theorem State.setSp_popped_seven (s : State) (v : Byte) : (s.popped 7).setSp v = s.setSp v := by
  simp [State.setSp, State.popped, State.setReg]

/-- Settles O20: the second look at the pointer sees it unmoved for another register than 7 (`reg_seven_popped`) and sees the popped
value for register 7 (`reg_seven_popped_seven`). -/
theorem popLoadsFromTheStackPointer : Obligations.PopLoadsFromTheStackPointer := by
  refine ⟨fetchedAs_pop, fun _ _ hr => exec_of_raises (.popIndex hr), fun reg s hr hsp => ?_, fun r reg s hr h7 hsp => ?_,
    fun reg s hr hsp htop => ?_, fun reg s hr hsp htop => ?_⟩
  · exact exec_of_raises (.popEmpty (r := ⟨reg.toNat, by omega⟩) rfl hsp)
  · have hptr := State.reg_seven_popped (s := s) h7
    have hexec := exec_of_effect (.pop hr hsp (by rwa [hptr]))
    rw [hptr] at hexec
    exact hexec
  · have hptr := State.reg_seven_popped_seven s
    have hexec := exec_of_effect (.pop (r := 7) hr hsp (by rwa [hptr]))
    rw [hptr, State.setSp_popped_seven] at hexec
    exact hexec
  · exact exec_of_raises (.popTop (r := 7) hr hsp (by rwa [State.reg_seven_popped_seven]))

/-! ### PUSH and POP undo each other (R155) -/

/-- Equal register files hold the same in every register. -/
theorem State.reg_eq_of_x_eq {s t : State} (h : t.x = s.x) (r : Fin 8) : t.reg r = s.reg r := by
  rw [State.reg, h, State.reg]

/-- Loading a register with what it holds changes nothing. -/
theorem State.popped_eq_self {s : State} {r : Fin 8} (h : s.mem.read (s.reg 7).toNat = s.reg r) : s.popped r = s := by
  rw [State.popped, h]
  simp [State.setReg, State.reg]

section
variable {s t : State} {r : Fin 8} {reg v : Byte}

/-- A PUSH moves the pointer down by one, without wrap. -/
theorem State.toNat_reg_seven_pushed (hsp : s.reg 7 ≠ 0) (v : Byte) :
    ((s.pushed v).reg 7).toNat = (s.reg 7).toNat - 1 := by
  rw [State.reg_pushed, if_pos rfl]
  bv_omega

/-- After a PUSH the cell below the old pointer holds the pushed byte and every other cell what it held. -/
theorem State.read_pushed (hsp : s.reg 7 ≠ 0) (v : Byte) (a : Nat) :
    (s.pushed v).mem.read a = if a = (s.reg 7).toNat - 1 then v else s.mem.read a := by
  rw [← State.toNat_reg_seven_pushed hsp v, State.pushed_mem, Memory.read_write, State.reg_pushed, if_pos rfl]

/-- Moving the pointer up again gives back the registers there were before a PUSH. -/
theorem State.setSp_of_pushed (hx : t.x = (s.pushed v).x) : t.setSp (t.reg 7 + 1) = { t with x := s.x } := by
  have hregs : (t.setSp (t.reg 7 + 1)).x = s.x := State.x_ext fun q => by
    by_cases hq : q = 7 <;> simp [State.reg_eq_of_x_eq hx, hq]
  rw [← hregs]
  rfl

/-- With the registers as a PUSH left them and the pushed cell holding what the operand register holds, POP moves the pointer only
and so gives back the registers there were before the PUSH, also for register 7. -/
theorem effect_pop_of_pushed (hr : reg.toNat = r.val) (hsp : s.reg 7 ≠ 0) (hx : t.x = (s.pushed v).x)
    (htop : t.mem.read ((s.reg 7).toNat - 1) = (s.pushed v).reg r) :
    Effect t (.pop reg) (({ t with x := s.x } : State).loadSeq 1) := by
  have hregs := State.reg_eq_of_x_eq hx
  have hsp' : t.reg 7 ≠ 0xFF := by
    have := State.toNat_reg_seven_pushed hsp v
    rw [hregs]
    bv_omega
  have hself : t.popped r = t := State.popped_eq_self (by rw [hregs, hregs, State.toNat_reg_seven_pushed hsp, htop])
  have heff := Effect.pop hr hsp' (by rwa [hself])
  rwa [hself, State.setSp_of_pushed hx] at heff

end

/-- Settles O41: POP is fetched from cells the PUSH has not written, and finds in the pushed cell what its register holds. -/
theorem pushThenPopRestores : Obligations.PushThenPopRestores := by
  intro s r reg hrun hpc hr hsp hpush hreg hpop hreg' hcells
  have hstep := (fetchedAs_push s hrun (by omega) hpush).2 (by omega)
  rw [hreg, exec_of_effect (.push hr hsp)] at hstep
  refine ⟨_, hstep, ?_⟩
  generalize hv : (if r = 7 then s.reg 7 - 1 else s.reg r) = v
  have hpc' : ((s.pushed v).loadSeq 1).pc.toNat = s.pc.toNat + 2 :=
    State.loadSeq_pc_toNat (s := s.pushed v) (show s.pc.toNat ≤ 255 by omega) (by omega)
  have hkept : ∀ k < 4, ((s.pushed v).loadSeq 1).mem.read (s.pc.toNat + k) = s.mem.read (s.pc.toNat + k) := fun k hk => by
    rw [State.loadSeq_mem, State.read_pushed hsp, if_neg (hcells k hk)]
  have hpushed : ((s.pushed v).loadSeq 1).mem.read ((s.reg 7).toNat - 1) = (s.pushed v).reg r := by
    rw [State.loadSeq_mem, State.read_pushed hsp, if_pos rfl, State.reg_pushed, hv]
  have hstep' := (fetchedAs_pop ((s.pushed v).loadSeq 1) hrun (by omega)
    (by rw [hpc', hkept 2 (by omega), hpop])).2 (by omega)
  rw [hpc', Nat.add_assoc, hkept 3 (by omega), hreg',
    exec_of_effect (effect_pop_of_pushed (t := (s.pushed v).loadSeq 1) hr hsp rfl hpushed)] at hstep'
  rw [hstep', State.loadSeq, hpc', ← State.toNat_reg_seven_pushed hsp v, State.reg_pushed, if_pos rfl]
  rfl

/-! ### The stack at any depth (R156) -/

theorem execAll_cons {s t : State} {i : Instr} (h : exec i s = .next t) (is : List Instr) :
    execAll (i :: is) s = execAll is t := by
  simp [execAll, h]

theorem execAll_append {s t : State} {is : List Instr} (h : execAll is s = .next t) (js : List Instr) :
    execAll (is ++ js) s = execAll js t := by
  induction is generalizing s with
  | nil =>
    obtain rfl : s = t := by simpa [execAll] using h
    rfl
  | cons i is ih =>
    cases hi : exec i s with
    | next u =>
      rw [execAll_cons hi] at h
      rw [List.cons_append, execAll_cons hi, ih h]
    | fault | refused => simp [execAll, hi] at h

/-- `t` is `s` after PUSH of the registers `rs` and POP in the opposite order: everything but `pc` and the stacked cells is as it
was, and the pushed values lie below the stack pointer in order (R156). -/
structure PushedAndPopped (rs : List Byte) (s t : State) : Prop where
  x : t.x = s.x
  fl : t.fl = s.fl
  out : t.out = s.out
  run : t.run = s.run
  cause : t.cause = s.cause
  cells : ∀ (k : Nat) (h : k < rs.length) (r : Fin 8), (rs[k]'h).toNat = r.val →
    t.mem.read ((s.reg 7).toNat - 1 - k) = s.reg r
  frame : ∀ a, a < (s.reg 7).toNat - rs.length ∨ (s.reg 7).toNat ≤ a → t.mem.read a = s.mem.read a

theorem PushedAndPopped.nil (s : State) : PushedAndPopped [] s s :=
  ⟨rfl, rfl, rfl, rfl, rfl, fun _ h => absurd h (Nat.not_lt_zero _), fun _ _ => rfl⟩

section
variable {s t : State} {r : Fin 8} {reg : Byte} {rs : List Byte}

/-- What lies between a PUSH and its POP leaves the pushed value in its cell. -/
theorem PushedAndPopped.read_pushed (hsp : s.reg 7 ≠ 0)
    (h : PushedAndPopped rs ((s.pushed (s.reg r)).loadSeq 1) t) : t.mem.read ((s.reg 7).toNat - 1) = s.reg r := by
  rw [h.frame _ (.inr (State.toNat_reg_seven_pushed hsp (s.reg r)).le), State.loadSeq_mem, State.read_pushed hsp, if_pos rfl]

/-- One more PUSH before and its POP after (R156). -/
theorem PushedAndPopped.cons (hr : reg.toNat = r.val) (hrs : ∀ q ∈ rs, q.toNat ≤ 6) (hsp : s.reg 7 ≠ 0)
    (h : PushedAndPopped rs ((s.pushed (s.reg r)).loadSeq 1) t) :
    PushedAndPopped (reg :: rs) s (({ t with x := s.x } : State).loadSeq 1) where
  x := rfl
  fl := h.fl
  out := h.out
  run := h.run
  cause := h.cause
  cells k hk q hq := by
    cases k with
    | zero =>
      obtain rfl : r = q := Fin.ext (hr.symm.trans hq)
      exact PushedAndPopped.read_pushed (t := t) hsp h
    | succ k =>
      have hk' : k < rs.length := Nat.lt_of_succ_lt_succ hk
      have hle : q.val ≤ 6 := hq ▸ hrs _ (List.getElem_mem hk')
      have hcell := h.cells k hk' q hq
      rw [State.reg_loadSeq, State.toNat_reg_seven_pushed hsp, State.reg_loadSeq, State.reg_pushed,
        if_neg (by rintro rfl; exact absurd hle (by decide))] at hcell
      rwa [Nat.add_comm k 1, Nat.sub_add_eq]
  frame a ha := by
    have hsp' := State.toNat_reg_seven_pushed hsp (s.reg r)
    have hpos : 0 < (s.reg 7).toNat := by bv_omega
    rw [List.length_cons] at ha
    have hframe : t.mem.read a = (s.pushed (s.reg r)).mem.read a := h.frame a (by rw [State.reg_loadSeq]; omega)
    rw [State.loadSeq_mem, hframe, State.read_pushed hsp, if_neg (by omega)]

end

/-- A list of PUSHes and then the POPs in the opposite order complete, by induction on the list: each PUSH and its POP enclose the
rest. -/
theorem execAll_push_pop (rs : List Byte) (s : State) (hrs : ∀ r ∈ rs, r.toNat ≤ 6) (hlen : rs.length ≤ (s.reg 7).toNat) :
    ∃ t, execAll (rs.map .push ++ rs.reverse.map .pop) s = .next t ∧ PushedAndPopped rs s t := by
  induction rs generalizing s with
  | nil => exact ⟨s, rfl, .nil s⟩
  | cons reg rs ih =>
    obtain ⟨hreg, hrs⟩ := List.forall_mem_cons.mp hrs
    rw [List.length_cons] at hlen
    have hsp : s.reg 7 ≠ 0 := fun h => by simp [h] at hlen
    obtain ⟨r, hr⟩ : ∃ r : Fin 8, reg.toNat = r.val := ⟨⟨reg.toNat, by omega⟩, rfl⟩
    have h7 : r ≠ 7 := by rintro rfl; exact absurd hreg (by rw [hr]; decide)
    have hpush := exec_of_effect (.push hr hsp)
    rw [if_neg h7] at hpush
    obtain ⟨t, hexec, ht⟩ := ih ((s.pushed (s.reg r)).loadSeq 1) hrs
      ((Nat.le_sub_one_of_lt hlen).trans_eq (State.toNat_reg_seven_pushed hsp (s.reg r)).symm)
    have hpop := exec_of_effect (effect_pop_of_pushed (v := s.reg r) hr hsp ht.x
      (by rw [ht.read_pushed hsp, State.reg_pushed, if_neg h7]))
    refine ⟨_, ?_, ht.cons hr hrs hsp⟩
    calc execAll ((reg :: rs).map .push ++ (reg :: rs).reverse.map .pop) s
        = execAll (.push reg :: ((rs.map .push ++ rs.reverse.map .pop) ++ [.pop reg])) s := by simp
      _ = execAll [.pop reg] t := by rw [execAll_cons hpush, execAll_append hexec]
      _ = .next (({ t with x := s.x } : State).loadSeq 1) := execAll_cons hpop []

/-- Settles O43: the parts of `PushedAndPopped`, one by one. -/
theorem stackIsLastInFirstOut : Obligations.StackIsLastInFirstOut := by
  intro rs s hrs hlen
  obtain ⟨t, hexec, ht⟩ := execAll_push_pop rs s hrs hlen
  exact ⟨t, hexec, ht.x, ht.fl, ht.out, ht.run, ht.cause, ht.cells, ht.frame⟩

end Sys2Proof.Machine

/-! ## CALL and RET (`spec/44_call_ret.md`) -/

namespace Sys2Proof.Machine

theorem fetchedAs_call : FetchedAs 0x50 1 (fun reg _ => .call reg) :=
  fetchedAs_opc (mn := .CALL) (fun _ _ => rfl) (fun _ _ => rfl)

theorem fetchedAs_ret : FetchedAs 0x11 0 (fun _ _ => .ret) :=
  fetchedAs_opc (mn := .RET) (fun _ _ => rfl) (fun _ _ => rfl)

/-- Settles O21: the byte is CALL's in the opcode table, and the two ways the rule can end are `Raises` and `Effect`. -/
theorem callStoresTheReturnAddressAndJumps : Obligations.CallStoresTheReturnAddressAndJumps :=
  ⟨fetchedAs_call, fun _ _ hc => exec_of_raises (.call hc), fun _ _ _ hr hsp hpc => exec_of_effect (.call hr hsp hpc)⟩

/-- Settles O22: the byte is RET's in the opcode table, and the two ways the rule can end are `Raises` and `Effect`. -/
theorem retJumpsToTheStackTop : Obligations.RetJumpsToTheStackTop :=
  ⟨fetchedAs_ret, fun _ hsp => exec_of_raises (.ret hsp), fun _ hsp => exec_of_effect (.ret hsp)⟩

/-! ### RET undoes CALL (R162) -/

/-- After a push the cell at the pointer holds the pushed byte. -/
theorem State.read_top_pushed (s : State) (v : Byte) : (s.pushed v).mem.read ((s.pushed v).reg 7).toNat = v := by
  simp

/-- With the pointer and the cell at it as a push of `v` left them, RET goes to `v` and moves the pointer back up. -/
theorem effect_ret_of_pushed {s u : State} {v : Byte} (hsp : s.reg 7 ≠ 0) (hptr : u.reg 7 = (s.pushed v).reg 7)
    (htop : u.mem.read (u.reg 7).toNat = (s.pushed v).mem.read ((s.pushed v).reg 7).toNat) :
    Effect u .ret ((u.loadTarget v).setSp (s.reg 7)) := by
  have hsp' : u.reg 7 ≠ 0xFF := by
    have := State.toNat_reg_seven_pushed hsp v
    rw [hptr]
    bv_omega
  have hback : u.reg 7 + 1 = s.reg 7 := by simp [hptr]
  have heff := Effect.ret hsp'
  rwa [htop, State.read_top_pushed, hback] at heff

/-- Settles O42: the CALL pushes its return address, which up to `pc = 253` is a byte, and `effect_ret_of_pushed` gives the RET. -/
theorem retReturnsAfterTheCall : Obligations.RetReturnsAfterTheCall := by
  intro s reg hreg hsp hpc
  obtain ⟨r, hr⟩ := (legal_or_illegal reg).resolve_right (Nat.not_lt.mpr hreg)
  refine ⟨_, exec_of_effect (.call hr hsp (by omega)), fun u hptr htop => ?_⟩
  refine ⟨_, exec_of_effect (effect_ret_of_pushed hsp hptr htop), ?_, by simp⟩
  calc ((u.loadTarget (BitVec.ofNat 8 (s.pc.toNat + 2))).setSp (s.reg 7)).pc.toNat
      = (BitVec.ofNat 8 (s.pc.toNat + 2)).toNat := State.loadTarget_pc_toNat u _
    _ = s.pc.toNat + 2 := by rw [BitVec.toNat_ofNat, Nat.mod_eq_of_lt (by omega)]

end Sys2Proof.Machine

/-! ## CMP, JEQ, JNE and JMP (`spec/45_cmp_branch.md`) -/

namespace Sys2Proof.Machine

theorem fetchedAs_cmp : FetchedAs 0xA7 2 (fun ra rb => .cmp ra rb) :=
  fetchedAs_opc (mn := .CMP) (fun _ _ => rfl) (fun _ _ => rfl)

theorem fetchedAs_jeq : FetchedAs 0x55 1 (fun reg _ => .jeq reg) :=
  fetchedAs_opc (mn := .JEQ) (fun _ _ => rfl) (fun _ _ => rfl)

theorem fetchedAs_jne : FetchedAs 0x56 1 (fun reg _ => .jne reg) :=
  fetchedAs_opc (mn := .JNE) (fun _ _ => rfl) (fun _ _ => rfl)

theorem fetchedAs_jmp : FetchedAs 0x54 1 (fun reg _ => .jmp reg) :=
  fetchedAs_opc (mn := .JMP) (fun _ _ => rfl) (fun _ _ => rfl)

/-- Settles O23: the byte is CMP's in the opcode table, and the two ways the rule can end are `Raises` and `Effect`. -/
theorem cmpSetsTheFlag : Obligations.CmpSetsTheFlag :=
  ⟨fetchedAs_cmp, fun _ _ _ hr => exec_of_raises (.cmp hr), fun _ _ _ _ _ hi hj => exec_of_effect (.cmp hi hj)⟩

/-- Settles O24: the byte is JEQ's in the opcode table; of the three ways the rule can end, the untaken one asks nothing of the
register byte. -/
theorem jeqJumpsWhenEqual : Obligations.JeqJumpsWhenEqual :=
  ⟨fetchedAs_jeq, fun _ _ hfl hr => exec_of_raises (.jeq hfl hr), fun _ _ _ hfl hr => exec_of_effect (.jeqTaken hfl hr),
    fun _ _ hfl => exec_of_effect (.jeqUntaken hfl)⟩

/-- Settles O25: the byte is JNE's in the opcode table; of the three ways the rule can end, the untaken one asks nothing of the
register byte. -/
theorem jneJumpsWhenNotEqual : Obligations.JneJumpsWhenNotEqual :=
  ⟨fetchedAs_jne, fun _ _ hfl hr => exec_of_raises (.jne hfl hr), fun _ _ _ hfl hr => exec_of_effect (.jneTaken hfl hr),
    fun _ _ hfl => exec_of_effect (.jneUntaken hfl)⟩

/-- Settles O26: the byte is JMP's in the opcode table, and the two ways the rule can end are `Raises` and `Effect`. -/
theorem jmpJumps : Obligations.JmpJumps :=
  ⟨fetchedAs_jmp, fun _ _ hr => exec_of_raises (.jmp hr), fun _ _ _ hr => exec_of_effect (.jmp hr)⟩

/-! ### Flags that are not EQUAL are alike (R176) -/

/-- A flag twin is the state with another flag in place, EQUAL exactly when the state's own is. -/
theorem flagTwins_iff {s s' : State} :
    FlagTwins s s' ↔ ∃ g : Flag, s' = s.setFl g ∧ (s.fl = .equal ↔ g = .equal) :=
  ⟨fun ⟨hs, hg⟩ => ⟨s'.fl, hs, hg⟩, by rintro ⟨g, rfl, hg⟩; exact ⟨rfl, hg⟩⟩

section
variable {s t : State} {g : Flag} {i : Instr} {e : ErrorKind}

/-- What completes from a state completes from its flag twin, in a flag twin: CMP overwrites both flags with the same value, and the
two branches ask only whether the flag is EQUAL. -/
theorem Effect.of_flagTwin (h : Effect s i t) (hg : s.fl = .equal ↔ g = .equal) :
    ∃ t', Effect (s.setFl g) i t' ∧ FlagTwins t t' := by
  cases h with
  | cmp hi hj => exact ⟨_, .cmp hi hj, rfl, Iff.rfl⟩
  | jeqTaken hfl hr => exact ⟨_, .jeqTaken (hg.mp hfl) hr, rfl, hg⟩
  | jeqUntaken hfl => exact ⟨_, .jeqUntaken (mt hg.mpr hfl), rfl, hg⟩
  | jneTaken hfl hr => exact ⟨_, .jneTaken (mt hg.mpr hfl) hr, rfl, hg⟩
  | jneUntaken hfl => exact ⟨_, .jneUntaken (hg.mp hfl), rfl, hg⟩
  | ldi hr => exact ⟨_, .ldi hr, rfl, hg⟩
  | prn hr => exact ⟨_, .prn hr, rfl, hg⟩
  | mul hi hj => exact ⟨_, .mul hi hj, rfl, hg⟩
  | add hi hj => exact ⟨_, .add hi hj, rfl, hg⟩
  | push hr hsp => exact ⟨_, .push hr hsp, rfl, hg⟩
  | pop hr hsp htop => exact ⟨_, .pop hr hsp htop, rfl, hg⟩
  | call hr hsp hpc => exact ⟨_, .call hr hsp hpc, rfl, hg⟩
  | ret hsp => exact ⟨_, .ret hsp, rfl, hg⟩
  | jmp hr => exact ⟨_, .jmp hr, rfl, hg⟩
  | hlt => exact ⟨_, .hlt, rfl, hg⟩

/-- What raises from a state raises the same from its flag twin. -/
theorem Raises.of_flagTwin (h : Raises s i e) (hg : s.fl = .equal ↔ g = .equal) : Raises (s.setFl g) i e := by
  cases h with
  | jeq hfl hr => exact .jeq (hg.mp hfl) hr
  | jne hfl hr => exact .jne (mt hg.mpr hfl) hr
  | ldi hr => exact .ldi hr
  | prn hr => exact .prn hr
  | mul hr => exact .mul hr
  | add hr => exact .add hr
  | push hc => exact .push hc
  | popIndex hr => exact .popIndex hr
  | popEmpty hr hsp => exact .popEmpty hr hsp
  | popTop hr hsp htop => exact .popTop hr hsp htop
  | call hc => exact .call hc
  | ret hsp => exact .ret hsp
  | cmp hr => exact .cmp hr
  | jmp hr => exact .jmp hr

/-- An exception keeps the flag of the state it is taken from. -/
theorem flagTwins_raise (hg : s.fl = .equal ↔ g = .equal) (e : ErrorKind) :
    FlagTwins (s.raise e) ((s.setFl g).raise e) := ⟨rfl, hg⟩

/-- An instruction executed from two flag twins answers two flag twins. -/
theorem exec_flagTwins (i : Instr) (hg : s.fl = .equal ↔ g = .equal) :
    ∃ t t', exec i s = .next t ∧ exec i (s.setFl g) = .next t' ∧ FlagTwins t t' := by
  obtain ⟨t, he⟩ | ⟨e, hr⟩ := effect_or_raises i s
  · obtain ⟨t', he', htwin⟩ := he.of_flagTwin hg
    exact ⟨t, t', exec_of_effect he, exec_of_effect he', htwin⟩
  · exact ⟨_, _, exec_of_raises hr, exec_of_raises (hr.of_flagTwin hg), flagTwins_raise hg e⟩

end

/-- Settles O38: a fetch does not read the flag (`fetch_congr`), so both steps raise the same from it or execute the same
instruction (`exec_flagTwins`). -/
theorem unequalFlagsAreIndistinguishable : Obligations.UnequalFlagsAreIndistinguishable := by
  intro s s' htwin hrun
  obtain ⟨g, rfl, hg⟩ := flagTwins_iff.mp htwin
  have hfetch : fetch (s.setFl g) = fetch s := fetch_congr rfl rfl
  cases hf : fetch s with
  | ok i =>
    rw [step_of_fetch_ok hrun hf, step_of_fetch_ok (s := s.setFl g) hrun (hfetch.trans hf)]
    exact exec_flagTwins i hg
  | error e => exact ⟨_, _, step_of_fetch_error hrun hf, step_of_fetch_error hrun (hfetch.trans hf), flagTwins_raise hg e⟩

/-! ### The flag state machine (R171) -/

/-- A comparison never answers UNSET (R170). -/
theorem comparator_ne_unset (p q : Byte) : comparator p q ≠ .unset := by
  unfold comparator
  split_ifs <;> decide

/-- A completed instruction leaves the flag alone, or it is a CMP, which sets it to a comparison's result and runs on. -/
theorem Effect.fl_cases {s t : State} {i : Instr} (h : Effect s i t) :
    t.fl = s.fl ∨ ∃ ra rb p q : Byte, i = .cmp ra rb ∧ t.fl = comparator p q ∧ t.run = s.run := by
  cases h with
  | cmp => exact .inr ⟨_, _, _, _, rfl, rfl, rfl⟩
  | _ => exact .inl rfl

/-- A CMP of two registers, once fetched, sets the flag to their comparison (R170). -/
theorem step_cmp_fl {s t : State} {i j : Fin 8} {ra rb : Byte} (h : step s = .next t) (hf : fetch s = .ok (.cmp ra rb))
    (hi : ra.toNat = i.val) (hj : rb.toNat = j.val) : t.fl = comparator (s.reg i) (s.reg j) := by
  obtain ⟨hrun, -⟩ := step_cases h
  rw [step_of_fetch_ok hrun hf, exec_of_effect (.cmp hi hj)] at h
  cases h
  rfl

/-- Settles O36: only a completed CMP moves the flag (`Effect.fl_cases`), it does not halt, and its comparison is never UNSET; an
exception keeps the flag. -/
theorem flagMovesOnlyByCmp : Obligations.FlagMovesOnlyByCmp := by
  refine ⟨rfl, fun s t h => ⟨fun _ _ _ _ hi hj hf => step_cmp_fl h hf hi hj, ?_⟩⟩
  obtain ⟨hrun, -⟩ := step_cases h
  obtain ⟨i, hf, he⟩ | ⟨e, _, rfl⟩ := step_next h
  · obtain hfl | ⟨ra, rb, p, q, rfl, hfl, hrun'⟩ := he.fl_cases
    · exact ⟨fun _ => hfl, fun hs => by rwa [hfl]⟩
    · refine ⟨?_, fun _ => by rw [hfl]; exact comparator_ne_unset p q⟩
      rintro (hne | hhalt)
      · exact absurd hf (hne ra rb)
      · simp [hrun', hrun] at hhalt
  · exact ⟨fun _ => rfl, id⟩

end Sys2Proof.Machine

/-! ## HLT (`spec/46_hlt.md`) -/

namespace Sys2Proof.Machine

theorem fetchedAs_hlt : FetchedAs 0x01 0 (fun _ _ => .hlt) :=
  fetchedAs_opc (mn := .HLT) (fun _ _ => rfl) (fun _ _ => rfl)

/-- Settles O27: the byte is HLT's in the opcode table, and HLT ends in one way only, its `Effect`, whatever the state. -/
theorem hltHalts : Obligations.HltHalts :=
  ⟨fetchedAs_hlt, fun _ => exec_of_effect .hlt⟩

end Sys2Proof.Machine

/-! ## Exceptions are precise (`spec/60_exceptions.md`) -/

namespace Sys2Proof.Machine

/-- A completed instruction leaves `run` and `cause` alone, or it is HLT and changes nothing else (R185). -/
theorem Effect.run_cause_cases {s t : State} {i : Instr} (h : Effect s i t) :
    (t.run = s.run ∧ t.cause = s.cause) ∨ (i = .hlt ∧ t = s.halt .hlt) := by
  cases h with
  | hlt => exact .inr ⟨rfl, rfl⟩
  | _ => exact .inl ⟨rfl, rfl⟩

/-- A step goes on RUNNING with its cause kept, or it only halts the state it began in, with a cause (R185, R196). -/
theorem step_runs_or_halts {s t : State} (h : step s = .next t) :
    (t.run = .running ∧ t.cause = s.cause) ∨ ∃ c, c ≠ .none ∧ t = s.halt c := by
  obtain ⟨hrun, -⟩ := step_cases h
  obtain ⟨i, _, he⟩ | ⟨e, _, ht⟩ := step_next h
  · obtain ⟨hkept, hcause⟩ | ⟨-, ht⟩ := he.run_cause_cases
    · exact .inl ⟨hkept.trans hrun, hcause⟩
    · exact .inr ⟨.hlt, by decide, ht⟩
  · exact .inr ⟨e.cause, e.cause_ne_none, ht⟩

/-- No step follows a halted state (R117). -/
theorem step_ne_next_of_halted {s : State} (h : s.run = .halted) (t : State) : step s ≠ .next t := by
  simp [haltedCoreTakesNoStep s h]

/-- Settles O13: by `step_runs_or_halts` a step that halted answered `s.halt c`, which differs from `s` in `run` and `cause` only,
and one that did not halt kept the cause. -/
theorem errorsArePrecise : Obligations.ErrorsArePrecise := by
  intro s t h
  obtain ⟨hrun, hcause⟩ | ⟨c, hc, rfl⟩ := step_runs_or_halts h
  · exact ⟨fun hhalt => by simp [hrun] at hhalt, fun _ => hcause⟩
  · exact ⟨fun hhalt => ⟨hc, rfl, step_ne_next_of_halted hhalt⟩, fun hrun => by simp at hrun⟩

end Sys2Proof.Machine

/-! ## Reset, launch and the host's moves (`spec/70_reset_and_hazards.md`) -/

namespace Sys2Proof.Machine

/-! ### A RUNNING core steps -/

/-- No instruction ends in a fault or a refusal (R195, R234). -/
theorem exec_answers (i : Instr) (s : State) : ∃ t, exec i s = .next t := by
  obtain ⟨t, ht⟩ | ⟨e, he⟩ := effect_or_raises i s
  · exact ⟨t, exec_of_effect ht⟩
  · exact ⟨s.raise e, exec_of_raises he⟩

/-- Settles O12: a fetched instruction answers a next state, and so does the exception of a failed fetch. -/
theorem runningCoreIsNeverStuck : Obligations.RunningCoreIsNeverStuck := by
  intro s hrun
  cases hf : fetch s with
  | ok i =>
    rw [step_of_fetch_ok hrun hf]
    exact exec_answers i s
  | error e => exact ⟨s.raise e, step_of_fetch_error hrun hf⟩

/-! ### The load of an image -/

theorem loadCell_inRange {a : Nat} (h : a ≤ 255) (v : Byte) (m : Memory) : loadCell a v m = .ok (m.write a v) := by
  obtain ⟨_, hl⟩ | ⟨ha, _⟩ := loadCell_cases a v m
  · exact hl
  · omega

theorem loadCell_outOfRange {a : Nat} (h : 255 < a) (v : Byte) (m : Memory) : loadCell a v m = .error .outOfRange := by
  obtain ⟨ha, _⟩ | ⟨_, hl⟩ := loadCell_cases a v m
  · omega
  · exact hl

theorem loadBytes_cons_inRange {a : Nat} (h : a ≤ 255) (b : Byte) (bs : List Byte) (m : Memory) :
    loadBytes a (b :: bs) m = loadBytes (a + 1) bs (m.write a b) := by
  simp [loadBytes, loadCell_inRange h]

theorem loadBytes_cons_outOfRange {a : Nat} (h : 255 < a) (b : Byte) (bs : List Byte) (m : Memory) :
    loadBytes a (b :: bs) m = .error .outOfRange := by
  simp [loadBytes, loadCell_outOfRange h]

/-- Bytes that end at or below the last cell are all written, each to its cell, and no other cell changes (R224). -/
theorem loadBytes_inRange {a : Nat} {bs : List Byte} (m : Memory) (h : a + bs.length ≤ 256) :
    ∃ n, loadBytes a bs m = .ok n ∧ ∀ k, n.read k = if k < a then m.read k else bs.getD (k - a) (m.read k) := by
  induction bs generalizing a m with
  | nil => exact ⟨m, rfl, fun k => by simp⟩
  | cons b bs ih =>
    rw [List.length_cons] at h
    obtain ⟨n, hn, hread⟩ := ih (a := a + 1) (m.write a b) (by omega)
    refine ⟨n, by rw [loadBytes_cons_inRange (by omega), hn], fun k => ?_⟩
    rw [hread, Memory.read_write]
    obtain hk | rfl | hk := Nat.lt_trichotomy k a
    · simp [hk, hk.ne, Nat.lt_succ_of_lt hk]
    · simp
    · obtain ⟨j, rfl⟩ := Nat.exists_eq_add_of_lt hk
      simp [show a + j + 1 - a = j + 1 by omega, show a + j + 1 - (a + 1) = j by omega, show a + j + 1 ≠ a by omega,
        show ¬ a + j + 1 < a by omega]

/-- Bytes that go on past the last cell reach the refused write of address 256 (R224). -/
theorem loadBytes_outOfRange {a : Nat} {bs : List Byte} (m : Memory) (ha : a ≤ 256) (h : 256 < a + bs.length) :
    loadBytes a bs m = .error .outOfRange := by
  induction bs generalizing a m with
  | nil => rw [List.length_nil] at h; omega
  | cons b bs ih =>
    rw [List.length_cons] at h
    by_cases hlast : a ≤ 255
    · rw [loadBytes_cons_inRange hlast]
      exact ih (m.write a b) (by omega) (by omega)
    · exact loadBytes_cons_outOfRange (by omega) b bs m

/-! ### Launch -/

theorem launch_of_loadBytes_ok {image : List Byte} {m : Memory} (h : loadBytes 0 image [] = .ok m) :
    launch image = .ok (launchState m) := by
  simp [launch, State.reset, h]

theorem launch_of_loadBytes_error {image : List Byte} {e : ErrorKind} (h : loadBytes 0 image [] = .error e) :
    launch image = .error e := by
  simp [launch, State.reset, h]

/-- A launch state meets the invariant as soon as its memory is canonical: all else is at reset. -/
theorem launchState_inv {m : Memory} (hm : m.wf = true) : (launchState m).Inv := by
  obtain ⟨_, hrest⟩ := resetMeetsInvariant
  exact ⟨hm, hrest⟩

/-- Settles O4: an image of at most 256 bytes is loaded cell by cell over a memory that reads 0, a longer one meets the refused
write. -/
theorem launchPlacesTheImageOverReset : Obligations.LaunchPlacesTheImageOverReset := by
  refine fun image => ⟨fun hlen => ?_, fun hlen => ?_⟩
  · obtain ⟨m, hm, hread⟩ := loadBytes_inRange (a := 0) (bs := image) [] (by omega)
    have hwf : m.wf = true := loadBytes_keeps_wf hm reset_mem_wf
    exact ⟨launchState m, launch_of_loadBytes_ok hm, hread, launchState_inv hwf, rfl⟩
  · exact launch_of_loadBytes_error (loadBytes_outOfRange [] (by decide) (by omega))

/-! ### The launch sequence -/

/-- What the host's moves `ms` after a load come to: they go on from the memory loaded, or the refused load has ended them. -/
def afterLoad (ms : List Move) : Except ErrorKind Memory → MoveOutcome
  | .ok m => hostMoves ms (.waiting m)
  | .error e => .refused e

/-- The host's writes through the load port, one after another, come to what `loadBytes` answers. -/
theorem hostMoves_load (a : Nat) (bs : List Byte) (ms : List Move) (m : Memory) :
    hostMoves (loadMoves a bs ++ ms) (.waiting m) = afterLoad ms (loadBytes a bs m) := by
  induction bs generalizing a m with
  | nil => rfl
  | cons b bs ih =>
    cases hl : loadCell a b m with
    | ok n => simpa [loadMoves, hostMoves, hostMove, loadBytes, hl] using ih (a + 1) n
    | error e => simp [loadMoves, hostMoves, hostMove, loadBytes, hl, afterLoad]

/-- Whatever the core was doing, `rst` first leaves memory at its reset value (R220, R222). -/
theorem hostMoves_launchMoves (image : List Byte) (c : Session) :
    hostMoves (launchMoves image) c = afterLoad [.start] (loadBytes 0 image []) :=
  hostMoves_load 0 image [.start] []

/-- Settles O45: `launch` and the host's moves answer alike, whichever way the load ends. -/
theorem launchIsTheHostsMoves : Obligations.LaunchIsTheHostsMoves := by
  intro image c
  rw [hostMoves_launchMoves]
  cases hl : loadBytes 0 image [] with
  | ok m =>
    rw [launch_of_loadBytes_ok hl]
    refine ⟨fun s hs => ?_, fun e he => ?_⟩
    · cases hs; rfl
    · cases he
  | error e =>
    rw [launch_of_loadBytes_error hl]
    refine ⟨fun s hs => ?_, fun e' he => ?_⟩
    · cases hs
    · cases he; rfl

/-! ### The invariant over moves and steps -/

/-- A move that is made keeps the invariant: it leaves a launch state with canonical memory, or the session as it was. -/
theorem hostMove_keeps_inv {mv : Move} {c d : Session} (h : hostMove mv c = .done d) (hc : c.state.Inv) : d.state.Inv := by
  obtain ⟨-, rfl⟩ | ⟨a, v, m, n, -, rfl, hl, rfl⟩ | ⟨m, -, rfl, rfl⟩ | ⟨s, -, -, -, rfl⟩ := hostMove_cases h
  · exact launchState_inv reset_mem_wf
  · obtain ⟨hm, -⟩ := hc
    exact launchState_inv (loadCell_keeps_wf hl hm)
  · exact hc
  · exact hc

/-- A session's step is a step of the core, which keeps the invariant (O3). -/
theorem Session.step_keeps_inv {c d : Session} (h : c.step = some d) (hc : c.state.Inv) : d.state.Inv := by
  obtain ⟨s, t, rfl, ht, rfl⟩ := Session.step_cases h
  exact stepKeepsInvariant s t hc ht

/-- Settles O47 by the two lemmas above, one for the host and one for the core. -/
theorem hostAndCoreKeepInvariant : Obligations.HostAndCoreKeepInvariant := by
  rintro c d hc (⟨mv, hmove⟩ | hstep)
  · exact hostMove_keeps_inv hmove hc
  · exact Session.step_keeps_inv hstep hc

/-! ### The moves, phase by phase -/

theorem hostMove_load_inRange {a : Nat} (h : a ≤ 255) (v : Byte) (m : Memory) :
    hostMove (.load a v) (.waiting m) = .done (.waiting (m.write a v)) := by
  simp [hostMove, loadCell_inRange h]

theorem hostMove_load_outOfRange {a : Nat} (h : 255 < a) (v : Byte) (m : Memory) :
    hostMove (.load a v) (.waiting m) = .refused .outOfRange := by
  simp [hostMove, loadCell_outOfRange h]

theorem hostMove_start_running {s : State} (h : s.run = .running) : hostMove .start (.started s) = .noMove := by
  simp [hostMove, h]

theorem hostMove_start_halted {s : State} (h : s.run = .halted) : hostMove .start (.started s) = .done (.started s) := by
  simp [hostMove, h]

theorem Session.step_of_next {s t : State} (h : Machine.step s = .next t) : (Session.started s).step = some (.started t) := by
  simp [Session.step, h]

theorem Session.step_halted {s : State} (h : s.run = .halted) : (Session.started s).step = none := by
  simp [Session.step, haltedCoreTakesNoStep s h]

theorem Session.read_running {s : State} (h : s.run = .running) : (Session.started s).read = none := by
  simp [Session.read, haltedPort, h]

theorem Session.read_halted {s : State} (h : s.run = .halted) :
    (Session.started s).read = some (causePort s, observe s) := by
  simp [Session.read, haltedPort, h]

/-- Settles O46, a clause for `rst`, then the moves before `start`, after it, in RUNNING and in HALTED. -/
theorem hostMovesFollowThePhases : Obligations.HostMovesFollowThePhases := by
  refine ⟨fun c => ⟨[], rfl, rfl⟩, fun m a v h => hostMove_load_inRange h v m, fun m a v h => hostMove_load_outOfRange h v m,
    fun m => ⟨rfl, rfl⟩, fun s a v => rfl, fun s hrun => ?_, fun s hhalt => ?_⟩
  · obtain ⟨t, ht⟩ := runningCoreIsNeverStuck s hrun
    exact ⟨hostMove_start_running hrun, Session.read_running hrun, t, ht, Session.step_of_next ht⟩
  · exact ⟨hostMove_start_halted hhalt, Session.step_halted hhalt, Session.read_halted hhalt⟩

end Sys2Proof.Machine
